-- ==== Sys2Proof/Word.lean ====
section
/-!
DEFINITION. Word.lean: the three widths the spec's rules compute with (00_scope.md R9, R10).
-/

namespace Sys2Proof

/-- One byte of memory or of an instruction: 8 bits (R9). -/
abbrev Byte := BitVec 8

/-- XLEN = 32: a general register, `retr`, `spr`, `ipr`, an address, an operand slot (R9, R10). -/
abbrev Word := BitVec 32

/-- The width of `flagr`: 16 bits (R9, R27). -/
abbrev FlagWord := BitVec 16

end Sys2Proof
end

