-- ==== Sys2Proof/Config.lean ====
section
/-!
DEFINITION. Config.lean: the constants the spec fixes and the parameters of a run it leaves open
(00_scope.md section 4). The spec leaves no value open that an instruction produces, so there is no free value.
-/

namespace Sys2Proof

/-- INVALID_STEP (R14): the bytes `ipr` advances over a first byte that matches no opcode. -/
def Config.invalidStep : Nat := 1

/-- FETCH_WINDOW and MAX_ILEN (R14): the bytes, starting at `ipr`, the decoder can need. -/
def Config.fetchWindow : Nat := 5

/-- The parameters of a run the spec leaves OPEN (R11, R12, R13). A launch takes them as arguments.
MEM_SIZE is held as MEM_SIZE - 1, so that the 32-bit values are exactly the sizes 1 to 2^32 that R11 allows
(log entry 1). -/
structure Config.Params where
  /-- MEM_SIZE - 1, the highest valid byte address (R11). -/
  lastAddr : Word
  /-- MEM_INIT (R12): the byte at every address below MEM_SIZE; other arguments are not looked at. -/
  memInit  : Nat → Byte
  /-- SPR_INIT (R13): any 32-bit value. -/
  sprInit  : Word

/-- MEM_SIZE (R11). -/
def Config.Params.memSize (p : Config.Params) : Nat := p.lastAddr.toNat + 1

/-- The conventional SPR_INIT (R13): MEM_SIZE mod 2^32, one past the last byte. -/
def Config.conventionalSpr (lastAddr : Word) : Word := lastAddr + 1

end Sys2Proof
end

