-- ==== Sys2Proof/Syntax.lean ====
section
/-!
DEFINITION. Syntax.lean: the instructions of the ERISA CORE, one constructor per row of spec/opcode_table.json,
with the names the encoding rules use for them (30_encoding.md R81, R94, R100; 40_decoder_and_sequencer.md R110).
-/

namespace Sys2Proof

/-- A register field (R87): a 4-bit unsigned number `n` that names `x[n]`; all sixteen values are legal. -/
abbrev Reg := BitVec 4

/-- The decoder's nine ids (R100), in the order the source lists them. -/
inductive InstrId where
  | invalid | nop | sti | jmpabs | push | pop | mov | xor | add
  deriving DecidableEq, Repr

/-- The five formats (R81), and `none` for Invalid, which has no format (R92). -/
inductive Format where
  | o | r | ri | a | rr | none
  deriving DecidableEq, Repr

/-- The instructions and the decoder's outcome Invalid (R2), in the order of the opcode table. -/
inductive Instr where
  /-- R140. -/
  | nop
  /-- R150: text order, register first. -/
  | sti (reg : Reg) (imm : Word)
  /-- R142. -/
  | jmpabs (addr : Word)
  /-- R160. -/
  | push (reg : Reg)
  /-- R163. -/
  | pop (reg : Reg)
  /-- R152. -/
  | mov (dst src : Reg)
  /-- R170. -/
  | xor (dst src : Reg)
  /-- R172. -/
  | add (dst src : Reg)
  /-- R144: not an instruction, the outcome of a first byte that matches no opcode. It carries no byte:
  the decoder's bundle for it is the same for all 203 bytes (R93). -/
  | invalid
  deriving DecidableEq, Repr

/-- The decoded bundle DEC delivers (R88, R110): the id, two 32-bit operand slots and the length. -/
structure Bundle where
  id     : InstrId
  op0    : Word
  op1    : Word
  length : Nat
  deriving DecidableEq, Repr

/-- The token kinds of assembly text (R181). -/
inductive TokenKind where
  | mnemonic | register | immediate | labelRef
  deriving DecidableEq, Repr

/-- The two operand slots of a decoded instruction (R88). -/
inductive Slot where
  | op0 | op1
  deriving DecidableEq, Repr

/-- One text operand a row of the ISA table accepts (R94, R188): its allowed kinds and the slot it fills. -/
structure OperandSpec where
  kinds : List TokenKind
  slot  : Slot
  deriving DecidableEq, Repr

/-- One row of the ISA table (R94). -/
structure IsaRow where
  mnemonic : List Char
  id       : InstrId
  opcode   : Byte
  mask     : Byte
  length   : Nat
  format   : Format
  operands : List OperandSpec
  deriving DecidableEq, Repr

end Sys2Proof
end

