-- ==== Sys2Proof/WellFormed.lean ====
section
/-!
DEFINITION. WellFormed.lean: which decoded bundles stand for an instruction (30_encoding.md R89, R98, R99), and which
instructions have an encoding (R98).
-/

namespace Sys2Proof

/-- The bundle's id is one of the eight instructions: `encode(Invalid, ...)` is not defined (R98). -/
def Bundle.idEncodable (b : Bundle) : Bool := b.id != .invalid

/-- Register operands are 0 to 15 (R98; 93_implementation_defined.md U10). -/
def Bundle.regsInRange (b : Bundle) : Bool :=
  match b.id with
  | .invalid | .nop | .jmpabs => true
  | .sti => b.op1.toNat < 16
  | .push | .pop => b.op0.toNat < 16
  | .mov | .xor | .add => b.op0.toNat < 16 && b.op1.toNat < 16

/-- An unused slot holds 0 (R89). -/
def Bundle.unusedZero (b : Bundle) : Bool :=
  match b.id with
  | .invalid | .nop => b.op0 == 0 && b.op1 == 0
  | .jmpabs | .push | .pop => b.op1 == 0
  | .sti | .mov | .xor | .add => true

/-- `length` is constant for a given id (R99), and as the table of R92 gives it. -/
def Bundle.lengthRight (b : Bundle) : Bool :=
  match b.id with
  | .invalid => b.length == 0
  | .nop | .push | .pop => b.length == 1
  | .mov | .xor | .add => b.length == 2
  | .sti | .jmpabs => b.length == 5

/-- A bundle R98 and R99 speak of: an instruction's id, register operands in range, unused slots 0, its length. -/
def Bundle.wellFormed (b : Bundle) : Bool :=
  b.idEncodable && b.regsInRange && b.unusedZero && b.lengthRight

/-- An instruction with an encoding. The operands need no check: a register field has 4 bits and an immediate 32,
and every value of either is legal (R96). Only Invalid stands for no particular byte (R98). -/
def Instr.wellFormed (i : Instr) : Bool := i != .invalid

end Sys2Proof
end

