-- ==== Sys2Proof/Decode.lean ====
section
/-!
DEFINITION. Decode.lean: byte order, the ISA table, the decoder block DEC and the inverse `encode`
(30_encoding.md R80 to R100, 40_decoder_and_sequencer.md R110 to R112).
-/

namespace Sys2Proof

/-! ## Byte order -/

/-- `le32` (00_scope.md R17): `b0 | b1 << 8 | b2 << 16 | b3 << 24`. -/
def le32 (b0 b1 b2 b3 : Byte) : Word :=
  b0.setWidth 32 ||| b1.setWidth 32 <<< 8 ||| b2.setWidth 32 <<< 16 ||| b3.setWidth 32 <<< 24

/-- Bits `8k+7 .. 8k` of a word. -/
def byteOf (v : Word) (k : Nat) : Byte := v.extractLsb' (8 * k) 8

/-- The four bytes of a word in memory order, least significant first (R53, R84). -/
def leBytes (v : Word) : List Byte := [byteOf v 0, byteOf v 1, byteOf v 2, byteOf v 3]

/-- The high nibble `b[7:4]` of a byte (R17). -/
def hiNibble (b : Byte) : BitVec 4 := b.extractLsb' 4 4

/-- The low nibble `b[3:0]` of a byte (R17). -/
def loNibble (b : Byte) : BitVec 4 := b.extractLsb' 0 4

/-! ## What an id fixes -/

/-- The spec's numbering of the ids (R100). -/
def InstrId.number : InstrId → BitVec 4
  | .invalid => 0
  | .nop => 1
  | .sti => 2
  | .jmpabs => 3
  | .push => 4
  | .pop => 5
  | .mov => 6
  | .xor => 7
  | .add => 8

/-- The decoded `length` (R92, R93): constant for an id, 0 for Invalid. -/
def InstrId.length : InstrId → Nat
  | .invalid => 0
  | .nop | .push | .pop => 1
  | .mov | .xor | .add => 2
  | .sti | .jmpabs => 5

/-- The format (R92). -/
def InstrId.format : InstrId → Format
  | .invalid => .none
  | .nop => .o
  | .push | .pop => .r
  | .sti => .ri
  | .jmpabs => .a
  | .mov | .xor | .add => .rr

/-- The bytes a step consumes for an id (R118): its length, and INVALID_STEP for Invalid. -/
def InstrId.size : InstrId → Nat
  | .invalid => Config.invalidStep
  | i => i.length

def Instr.id : Instr → InstrId
  | .nop => .nop
  | .sti _ _ => .sti
  | .jmpabs _ => .jmpabs
  | .push _ => .push
  | .pop _ => .pop
  | .mov _ _ => .mov
  | .xor _ _ => .xor
  | .add _ _ => .add
  | .invalid => .invalid

/-- The decoded `length` of an instruction (R92, R93). -/
def Instr.length (i : Instr) : Nat := i.id.length

/-- The bytes a step consumes for an instruction (R118). -/
def Instr.size (i : Instr) : Nat := i.id.size

/-- The operand slots (R88, unused slots 0 by R89) with id and length: the bundle DEC delivers. -/
def Instr.bundle (i : Instr) : Bundle :=
  match i with
  | .nop => ⟨.nop, 0, 0, i.length⟩
  | .sti reg imm => ⟨.sti, imm, reg.setWidth 32, i.length⟩
  | .jmpabs addr => ⟨.jmpabs, addr, 0, i.length⟩
  | .push reg => ⟨.push, reg.setWidth 32, 0, i.length⟩
  | .pop reg => ⟨.pop, reg.setWidth 32, 0, i.length⟩
  | .mov dst src => ⟨.mov, dst.setWidth 32, src.setWidth 32, i.length⟩
  | .xor dst src => ⟨.xor, dst.setWidth 32, src.setWidth 32, i.length⟩
  | .add dst src => ⟨.add, dst.setWidth 32, src.setWidth 32, i.length⟩
  | .invalid => ⟨.invalid, 0, 0, i.length⟩

/-- The instruction a bundle stands for, its register ports indexed by `[3:0]` of the slots (R113). -/
def Bundle.instr (b : Bundle) : Instr :=
  match b.id with
  | .nop => .nop
  | .sti => .sti (b.op1.setWidth 4) b.op0
  | .jmpabs => .jmpabs b.op0
  | .push => .push (b.op0.setWidth 4)
  | .pop => .pop (b.op0.setWidth 4)
  | .mov => .mov (b.op0.setWidth 4) (b.op1.setWidth 4)
  | .xor => .xor (b.op0.setWidth 4) (b.op1.setWidth 4)
  | .add => .add (b.op0.setWidth 4) (b.op1.setWidth 4)
  | .invalid => .invalid

/-! ## The ISA table -/

/-- The mnemonic as program text spells it (R94, 48_assembly_syntax.md R184); for Invalid the sentinel of R197, which
no row of the ISA table has. -/
def InstrId.mnemonic : InstrId → List Char
  | .invalid => ['<', 'i', 'n', 'v', 'a', 'l', 'i', 'd', '>']
  | .nop => ['n', 'o', 'p']
  | .sti => ['s', 't', 'i']
  | .jmpabs => ['j', 'm', 'p', 'a', 'b', 's']
  | .push => ['p', 'u', 's', 'h']
  | .pop => ['p', 'o', 'p']
  | .mov => ['m', 'o', 'v']
  | .xor => ['x', 'o', 'r']
  | .add => ['a', 'd', 'd']

/-- The ISA table in its order (R94), with the text operands of R188. -/
def isaTable : List IsaRow :=
  [ ⟨InstrId.nop.mnemonic, .nop, 0x90#8, 0xff#8, 1, .o, []⟩,
    ⟨InstrId.sti.mnemonic, .sti, 0x70#8, 0xf0#8, 5, .ri, [⟨[.register], .op1⟩, ⟨[.immediate], .op0⟩]⟩,
    ⟨InstrId.jmpabs.mnemonic, .jmpabs, 0x91#8, 0xff#8, 5, .a, [⟨[.immediate, .labelRef], .op0⟩]⟩,
    ⟨InstrId.push.mnemonic, .push, 0x50#8, 0xf0#8, 1, .r, [⟨[.register], .op0⟩]⟩,
    ⟨InstrId.pop.mnemonic, .pop, 0x60#8, 0xf0#8, 1, .r, [⟨[.register], .op0⟩]⟩,
    ⟨InstrId.mov.mnemonic, .mov, 0xc0#8, 0xff#8, 2, .rr, [⟨[.register], .op0⟩, ⟨[.register], .op1⟩]⟩,
    ⟨InstrId.xor.mnemonic, .xor, 0xa0#8, 0xff#8, 2, .rr, [⟨[.register], .op0⟩, ⟨[.register], .op1⟩]⟩,
    ⟨InstrId.add.mnemonic, .add, 0xa1#8, 0xff#8, 2, .rr, [⟨[.register], .op0⟩, ⟨[.register], .op1⟩]⟩ ]

/-- `(byte & mask) == opcode` (R91). -/
def IsaRow.accepts (row : IsaRow) (b0 : Byte) : Bool := b0 &&& row.mask == row.opcode

/-- The first entry in table order that matches wins (R91). -/
def firstMatch (b0 : Byte) : Option IsaRow := isaTable.find? (·.accepts b0)

/-! ## The decoder -/

/-- The decode function DEC (R111), arm by arm. It is total (R112). -/
def dec (b0 b1 b2 b3 b4 : Byte) : Instr :=
  if b0 = 0x90#8 then .nop
  else if b0 &&& 0xf0#8 = 0x70#8 then .sti (loNibble b0) (le32 b1 b2 b3 b4)
  else if b0 = 0x91#8 then .jmpabs (le32 b1 b2 b3 b4)
  else if b0 &&& 0xf0#8 = 0x50#8 then .push (loNibble b0)
  else if b0 &&& 0xf0#8 = 0x60#8 then .pop (loNibble b0)
  else if b0 = 0xc0#8 then .mov (hiNibble b1) (loNibble b1)
  else if b0 = 0xa0#8 then .xor (hiNibble b1) (loNibble b1)
  else if b0 = 0xa1#8 then .add (hiNibble b1) (loNibble b1)
  else .invalid

/-- DEC on the bytes a step has fetched, bytes beyond them given as 0 (R118). -/
def decBytes (bs : List Byte) : Instr :=
  dec (bs.getD 0 0) (bs.getD 1 0) (bs.getD 2 0) (bs.getD 3 0) (bs.getD 4 0)

/-- Why a byte string cannot be decoded. The hardware's DEC never refuses (R112): both say only that the string ends
before the instruction does, which a step meets as FetchOutOfRange instead (R60). -/
inductive DecodeReject where
  /-- There is no first byte. -/
  | noBytes
  /-- The first byte selects `id`, which takes more bytes than the string has. -/
  | truncated (id : InstrId)
  deriving DecidableEq, Repr

/-- Decode the instruction at the head of a byte string, and the bytes after it. An Invalid first byte is one byte
long here, as it is to the sequencer (R118). -/
def decode (bs : List Byte) : Except DecodeReject (Instr × List Byte) :=
  match bs with
  | [] => .error .noBytes
  | _ :: _ =>
    let i := decBytes bs
    if i.size ≤ bs.length then .ok (i, bs.drop i.size) else .error (.truncated i.id)

/-! ## The inverse -/

/-- `encode` (R98); it is not defined of Invalid. -/
def encode : Instr → Option (List Byte)
  | .nop => some [0x90#8]
  | .sti reg imm => some ((0x70#8 ||| reg.setWidth 8) :: leBytes imm)
  | .jmpabs addr => some (0x91#8 :: leBytes addr)
  | .push reg => some [0x50#8 ||| reg.setWidth 8]
  | .pop reg => some [0x60#8 ||| reg.setWidth 8]
  | .mov dst src => some [0xc0#8, dst.setWidth 8 <<< 4 ||| src.setWidth 8]
  | .xor dst src => some [0xa0#8, dst.setWidth 8 <<< 4 ||| src.setWidth 8]
  | .add dst src => some [0xa1#8, dst.setWidth 8 <<< 4 ||| src.setWidth 8]
  | .invalid => none

/-! ## Words numbered as the opcode table numbers them -/

/-- The first `n` bytes of the number `w`, least significant first. -/
def wordBytes (w : Nat) : Nat → List Byte
  | 0 => []
  | n + 1 => BitVec.ofNat 8 w :: wordBytes (w / 256) n

/-- The longest instruction's bytes of the word `w` of `nbits` bits, zeros above `nbits`. -/
def tableBytes (nbits w : Nat) : List Byte := wordBytes (w % 2 ^ nbits) Config.fetchWindow

/-- The instruction the decoder reads from the word `w` of `nbits` bits. -/
def decodeTableWord (nbits w : Nat) : Option Instr :=
  match decode (tableBytes nbits w) with
  | .ok (i, _) => some i
  | .error _ => none

end Sys2Proof
end

