-- ==== Sys2Proof/Machine/State.lean ====
section
/-!
DEFINITION. Machine/State.lean: the architectural state (10_state.md R20), the run state (R32), and the state after
reset (R35).
-/

namespace Sys2Proof.Machine

/-- The two stop causes (60_exceptions.md R211). -/
inductive StopCause where
  /-- The fetch of a step reaches outside memory. -/
  | fetchOutOfRange
  /-- PUSH or POP reaches outside memory. -/
  | dataOutOfRange
  deriving DecidableEq, Repr

/-- A stop: its cause and the recorded address (R211). -/
structure Stop where
  cause : StopCause
  addr  : Word
  deriving DecidableEq, Repr

/-- The run state (R32): `Running` or `Stopped(cause, addr)`. -/
inductive RunState where
  | running
  | stopped (why : Stop)
  deriving DecidableEq, Repr

/-- Memory: the bytes that differ from what an unlisted address reads as, addresses strictly rising
(`Memory.wf` in Machine/Ops.lean). -/
abbrev Memory := List Host.Cell

/-- The architectural state, exactly R20's list, with the run parameter MEM_SIZE a step needs. -/
structure State where
  /-- `x[0]` to `x[15]` (R21). -/
  gpr      : Vector Word 16
  /-- The return-value register (R24). -/
  retr     : Word
  /-- The stack pointer (R25). -/
  spr      : Word
  /-- The instruction pointer, `pc` in pseudocode (R26). -/
  ipr      : Word
  /-- The flag register: bit 0 Carry, bit 1 Zero (R27). -/
  flagr    : FlagWord
  /-- `MEM` (R33). -/
  mem      : Memory
  /-- The run state (R32). -/
  run      : RunState
  /-- MEM_SIZE - 1: a parameter of the run that no step writes (R11, R34; log entry 1). -/
  lastAddr : Word
  deriving DecidableEq, Repr

/-- Why a step gives no next state. -/
inductive Fault where
  /-- Raised by `step` alone, of a core that is already stopped: no further step happens until reset (R212).
  Safe: the spec has no such step. The stop itself is a next state, not this fault (log entry 5). -/
  | stopped (why : Stop)
  deriving DecidableEq, Repr

/-- Why an instruction has no meaning. -/
inductive Refusal where
  /-- For an arm of `exec` whose instruction has no meaning. No arm raises it: every instruction has one.
  Safe: it would stop the model where the hardware goes on. -/
  | notModelled (mnemonic : String)
  deriving DecidableEq, Repr

/-- The machine right after reset (R35, 70_reset_and_hazards.md R230). The parameters the spec leaves open take the
values of log entries 2 (MEM_SIZE = 2^32), 3 (SPR_INIT = MEM_SIZE mod 2^32 = 0) and 4 (memory with nothing listed):
DESIGN CHOICE, unsafe. `State.launch` (Machine/Ops.lean) is reset with the parameters as arguments. -/
def State.reset : State where
  gpr := Vector.replicate 16 0
  retr := 0
  spr := 0
  ipr := 0
  flagr := 0
  mem := []
  run := .running
  lastAddr := 0xffffffff

end Sys2Proof.Machine
end

