-- ==== Sys2Proof/Machine/Ops.lean ====
section
/-!
DEFINITION. Machine/Ops.lean: the named operations over memory and registers: plain memory, the register file (RF,
40_decoder_and_sequencer.md R113), the load/store interface (LSU, R115), raising a stop (60_exceptions.md R212),
sequencing (PCU, R116), fetching an instruction (R118), and launching a run (70_reset_and_hazards.md R230).
-/

namespace Sys2Proof.Machine

/-! ## Memory as data -/

/-- What an address that is not listed reads as. DESIGN CHOICE (log entry 4); it decides only how a memory is
written down, since every content can be listed, and what `State.reset` holds. -/
def Memory.unlisted : Byte := 0

/-- The byte at an address. -/
def Memory.read : Memory → Nat → Byte
  | [], _ => Memory.unlisted
  | (k, v) :: m, a => if a = k then v else Memory.read m a

/-- Put a byte that is listed at its place in the rising order. -/
def Memory.insert : Memory → Nat → Byte → Memory
  | [], a, b => [(a, b)]
  | (k, v) :: m, a, b =>
    if a < k then (a, b) :: (k, v) :: m
    else if a = k then (a, b) :: m
    else (k, v) :: Memory.insert m a b

/-- Take an address out of the list. -/
def Memory.erase (m : Memory) (a : Nat) : Memory := m.filter (fun c => c.1 ≠ a)

/-- Write one byte; writing what an unlisted address reads as removes the entry. -/
def Memory.write (m : Memory) (a : Nat) (b : Byte) : Memory :=
  if b = Memory.unlisted then m.erase a else m.insert a b

/-- The `n` bytes from an address up, lowest address first. -/
def Memory.readBytes (m : Memory) (a : Nat) : Nat → List Byte
  | 0 => []
  | n + 1 => m.read a :: Memory.readBytes m (a + 1) n

/-- Write bytes from an address up, lowest address first. -/
def Memory.writeBytes (m : Memory) (a : Nat) : List Byte → Memory
  | [] => m
  | b :: bs => Memory.writeBytes (m.write a b) (a + 1) bs

/-- The memory whose byte at each address below `n` is the one a total function gives (MEM_INIT, 00_scope.md R12). -/
def Memory.ofFn (f : Nat → Byte) : Nat → Memory
  | 0 => []
  | n + 1 => if f n = Memory.unlisted then Memory.ofFn f n else Memory.ofFn f n ++ [(n, f n)]

/-- The canonical form: addresses strictly rising, no entry equal to what an unlisted address reads as. -/
abbrev Memory.wf (m : Memory) : Prop :=
  m.Pairwise (fun c d => c.1 < d.1) ∧ ∀ c ∈ m, c.2 ≠ Memory.unlisted

/-! ## Registers -/

/-- Read general register `r`: a read port of RF (R113). -/
def State.getGpr (s : State) (r : Reg) : Word := s.gpr[r.toNat]'r.isLt

/-- Write general register `r`: the write port of RF (R113). No register is hardwired (R22). -/
def State.setGpr (s : State) (r : Reg) (v : Word) : State := { s with gpr := s.gpr.set r.toNat v r.isLt }

/-- Write `spr`. -/
def State.setSpr (s : State) (v : Word) : State := { s with spr := v }

/-- Write `ipr`. -/
def State.setIpr (s : State) (v : Word) : State := { s with ipr := v }

/-- Write all 16 bits of `flagr` (R28). -/
def State.setFlagr (s : State) (v : FlagWord) : State := { s with flagr := v }

/-- Replace the memory. -/
def State.setMem (s : State) (m : Memory) : State := { s with mem := m }

/-- Write the run state. -/
def State.setRun (s : State) (r : RunState) : State := { s with run := r }

/-! ## Stops -/

/-- `raise <Cause>(addr)` (R212): the step writes nothing and the run state becomes Stopped(cause, addr). There is no
return from it but reset (R220). -/
def State.raise (s : State) (why : Stop) : State := s.setRun (.stopped why)

/-- The code of a stop cause (R211). -/
def StopCause.code : StopCause → Nat
  | .fetchOutOfRange => 1
  | .dataOutOfRange => 2

/-! ## The load/store interface -/

/-- MEM_SIZE (00_scope.md R11). -/
def State.memSize (s : State) : Nat := s.lastAddr.toNat + 1

/-- An access of `n` bytes at `a` lies inside memory: in integers, `a + n` is at most MEM_SIZE (20_memory.md R61). -/
abbrev State.inRange (s : State) (a : Word) (n : Nat) : Prop := a.toNat + n ≤ s.memSize

/-- `MemRead` (R58). -/
def memRead (s : State) (a : Word) (n : Nat) : Except Stop (List Byte) :=
  if s.inRange a n then .ok (s.mem.readBytes a.toNat n) else .error ⟨.dataOutOfRange, a⟩

/-- `MemWrite` (R59): the memory after it. -/
def memWrite (s : State) (a : Word) (bs : List Byte) : Except Stop Memory :=
  if s.inRange a bs.length then .ok (s.mem.writeBytes a.toNat bs) else .error ⟨.dataOutOfRange, a⟩

/-- `Fetch` (R60). -/
def fetchBytes (s : State) (a : Word) (n : Nat) : Except Stop (List Byte) :=
  if s.inRange a n then .ok (s.mem.readBytes a.toNat n) else .error ⟨.fetchOutOfRange, a⟩

/-! ## Sequencing -/

/-- `pc <- (pc + n) mod 2^32` (R120). -/
def State.advance (s : State) (n : Nat) : State := s.setIpr (s.ipr + BitVec.ofNat 32 n)

/-- The fetch and decode lines of a step (R118): one byte at `ipr`, which alone fixes the length, then the whole
instruction. -/
def fetchInstr (s : State) : Except Stop Instr :=
  match fetchBytes s s.ipr 1 with
  | .error why => .error why
  | .ok first =>
    match fetchBytes s s.ipr (decBytes first).size with
    | .error why => .error why
    | .ok bs => .ok (decBytes bs)

/-! ## Launch -/

/-- Reset with the parameters of a run (70_reset_and_hazards.md R230, R239): the only way a run starts and the only
way out of Stopped. -/
def State.launch (p : Config.Params) : State where
  gpr := Vector.replicate 16 0
  retr := 0
  spr := p.sprInit
  ipr := 0
  flagr := 0
  mem := Memory.ofFn p.memInit p.memSize
  run := .running
  lastAddr := p.lastAddr

/-- A warm reset (R230): a launch with MEM_INIT chosen as the memory of the run before it. -/
def State.warmReset (s : State) (sprInit : Word) : State :=
  State.launch ⟨s.lastAddr, s.mem.read, sprInit⟩

/-- Place bytes from address `a` up as a loader would, leaving out those beyond the end of memory. -/
def State.place (s : State) (a : Nat) (bs : List Byte) : State :=
  s.setMem (s.mem.writeBytes a (bs.take (s.memSize - a)))

end Sys2Proof.Machine
end

