-- ==== Sys2Proof/Machine/Flags.lean ====
section
/-!
DEFINITION. Machine/Flags.lean: the ALU and the flag register (40_decoder_and_sequencer.md R114, 44_alu.md R170 to
R175, 10_state.md R27, R28).
-/

namespace Sys2Proof.Machine

/-- The ALU's three functions (R114). -/
inductive AluFn where
  | passB | xor | add
  deriving DecidableEq, Repr

/-- The ALU's outputs (R114). -/
structure AluOut where
  result : Word
  carry  : Bool
  zero   : Bool
  deriving DecidableEq, Repr

/-- The 33-bit sum of two words (R172). -/
def sum33 (a b : Word) : BitVec 33 := a.setWidth 33 + b.setWidth 33

/-- The result of an ALU function (R114). -/
def aluResult (f : AluFn) (a b : Word) : Word :=
  match f with
  | .passB => b
  | .xor => a ^^^ b
  | .add => (sum33 a b).setWidth 32

/-- The carry output (R114, R172): bit 32 of the sum for ADD, 0 for XOR; not used for PASS_B. -/
def aluCarry (f : AluFn) (a b : Word) : Bool :=
  match f with
  | .passB | .xor => false
  | .add => (sum33 a b).getLsbD 32

/-- The ALU (R114). The zero output is of the 32-bit result (R172). -/
def alu (f : AluFn) (a b : Word) : AluOut :=
  ⟨aluResult f a b, aluCarry f a b, aluResult f a b == 0⟩

/-- Carry's mask in `flagr` (R27). -/
def carryMask : FlagWord := 0x0001

/-- Zero's mask in `flagr` (R27). -/
def zeroMask : FlagWord := 0x0002

/-- What XOR and ADD write to `flagr` (R28): 0, then the applicable bits. -/
def flagsOf (o : AluOut) : FlagWord :=
  (if o.carry then carryMask else 0) ||| (if o.zero then zeroMask else 0)

/-- `flagr.C` (R17). -/
def State.carry (s : State) : Bool := s.flagr.getLsbD 0

/-- `flagr.Z` (R17). -/
def State.zero (s : State) : Bool := s.flagr.getLsbD 1

/-- Run an ALU function on two operands and write its result to a register and its conditions to `flagr`. -/
def State.writeAlu (s : State) (dst : Reg) (o : AluOut) : State :=
  (s.setFlagr (flagsOf o)).setGpr dst o.result

end Sys2Proof.Machine
end

