-- ==== Sys2Proof/Machine/Alu.lean ====
section
/-!
DEFINITION. Machine/Alu.lean: XOR and ADD (44_alu.md). Both operands are read before the result is written (R113).
-/

namespace Sys2Proof.Machine

/-- R170. -/
def execXor (dst src : Reg) (s : State) : Host.Outcome State Fault Refusal :=
  .next ((s.writeAlu dst (alu .xor (s.getGpr dst) (s.getGpr src))).advance 2)

/-- R172. -/
def execAdd (dst src : Reg) (s : State) : Host.Outcome State Fault Refusal :=
  .next ((s.writeAlu dst (alu .add (s.getGpr dst) (s.getGpr src))).advance 2)

end Sys2Proof.Machine
end

