-- ==== Sys2Proof/Machine/Control.lean ====
section
/-!
DEFINITION. Machine/Control.lean: NOP, JMPABS and the outcome Invalid (41_control.md).
-/

namespace Sys2Proof.Machine

/-- R140. -/
def execNop (s : State) : Host.Outcome State Fault Refusal := .next (s.advance 1)

/-- R142: the target is not checked (R147) and no length is added (40_decoder_and_sequencer.md R120). -/
def execJmpabs (addr : Word) (s : State) : Host.Outcome State Fault Refusal := .next (s.setIpr addr)

/-- R144: no state change, `ipr` advances by INVALID_STEP. -/
def execInvalid (s : State) : Host.Outcome State Fault Refusal := .next (s.advance Config.invalidStep)

end Sys2Proof.Machine
end

