-- ==== Sys2Proof/Machine/Moves.lean ====
section
/-!
DEFINITION. Machine/Moves.lean: STI and MOV, through the ALU's PASS_B (42_register_moves.md). Neither touches
`flagr` (R154).
-/

namespace Sys2Proof.Machine

/-- R150. -/
def execSti (reg : Reg) (imm : Word) (s : State) : Host.Outcome State Fault Refusal :=
  .next ((s.setGpr reg (aluResult .passB 0 imm)).advance 5)

/-- R152. -/
def execMov (dst src : Reg) (s : State) : Host.Outcome State Fault Refusal :=
  .next ((s.setGpr dst (aluResult .passB 0 (s.getGpr src))).advance 2)

end Sys2Proof.Machine
end

