-- ==== Sys2Proof/Machine/Operands.lean ====
section
/-!
DEFINITION. Machine/Operands.lean: the operand forms. A register operand is read by `State.getGpr`, an immediate and
an absolute address are taken as they stand (30_encoding.md R87, R90); the one addressing mode is the implicit stack
address (43_stack.md R166).
-/

namespace Sys2Proof.Machine

/-- The address PUSH stores to (R160): `(spr - 4) mod 2^32`. -/
def pushAddr (s : State) : Word := s.spr - 4

/-- The address POP loads from (R163): `spr`. -/
def popAddr (s : State) : Word := s.spr

/-- Store a word on the stack: pre-decrement, little-endian, with write-back to `spr` (R160, R53, R166). -/
def pushWord (s : State) (v : Word) : Except Stop State :=
  match memWrite s (pushAddr s) (leBytes v) with
  | .error why => .error why
  | .ok m => .ok ((s.setMem m).setSpr (pushAddr s))

/-- Load a word from the stack: little-endian, post-increment with write-back to `spr` (R163, R54, R166). -/
def popWord (s : State) : Except Stop (Word × State) :=
  match memRead s (popAddr s) 4 with
  | .error why => .error why
  | .ok bs =>
    .ok (le32 (bs.getD 0 0) (bs.getD 1 0) (bs.getD 2 0) (bs.getD 3 0), s.setSpr (popAddr s + 4))

end Sys2Proof.Machine
end

