-- ==== Sys2Proof/Machine/Stack.lean ====
section
/-!
DEFINITION. Machine/Stack.lean: PUSH and POP (43_stack.md). An access outside memory raises DataOutOfRange, and then
nothing is written but the run state (60_exceptions.md R212).
-/

namespace Sys2Proof.Machine

/-- R160. -/
def execPush (reg : Reg) (s : State) : Host.Outcome State Fault Refusal :=
  match pushWord s (s.getGpr reg) with
  | .error why => .next (s.raise why)
  | .ok t => .next (t.advance 1)

/-- R163. -/
def execPop (reg : Reg) (s : State) : Host.Outcome State Fault Refusal :=
  match popWord s with
  | .error why => .next (s.raise why)
  | .ok (v, t) => .next ((t.setGpr reg v).advance 1)

end Sys2Proof.Machine
end

