-- ==== Sys2Proof/Machine/Dispatch.lean ====
section
/-!
DEFINITION. Machine/Dispatch.lean: the execute stage (40_decoder_and_sequencer.md R119), one handler per id, exhaustive
over the nine ids.
-/

namespace Sys2Proof.Machine

/-- `execute(ins)` with the write of `ipr` (R119, R120). -/
def exec (i : Instr) (s : State) : Host.Outcome State Fault Refusal :=
  match i with
  | .nop => Sys2Proof.Machine.execNop s
  | .sti reg imm => Sys2Proof.Machine.execSti reg imm s
  | .jmpabs addr => Sys2Proof.Machine.execJmpabs addr s
  | .push reg => Sys2Proof.Machine.execPush reg s
  | .pop reg => Sys2Proof.Machine.execPop reg s
  | .mov dst src => Sys2Proof.Machine.execMov dst src s
  | .xor dst src => Sys2Proof.Machine.execXor dst src s
  | .add dst src => Sys2Proof.Machine.execAdd dst src s
  | .invalid => Sys2Proof.Machine.execInvalid s

end Sys2Proof.Machine
end

