-- ==== Sys2Proof/Machine/Step.lean ====
section
/-!
DEFINITION. Machine/Step.lean: one step of the core (40_decoder_and_sequencer.md R118).
-/

namespace Sys2Proof.Machine

/-- One step (R118): enabled only while Running; a fetch outside memory raises FetchOutOfRange; otherwise the decoded
instruction is executed. -/
def step (s : State) : Host.Outcome State Fault Refusal :=
  match s.run with
  | .stopped why => .fault (.stopped why)
  | .running =>
    match fetchInstr s with
    | .error why => .next (s.raise why)
    | .ok i => exec i s

/-- `s` with the instruction of the word `w` of `nbits` bits placed at `ipr`, Running, so that the very next step runs
it: what a loader outside the machine does (log entry 10). -/
def State.withFetchWord (s : State) (nbits w : Nat) : State :=
  (s.place s.ipr.toNat (tableBytes nbits w)).setRun .running

end Sys2Proof.Machine
end

