-- ==== Sys2Proof/Machine/Asm.lean ====
section
/-!
DEFINITION. Machine/Asm.lean: what assembly text means as bytes (48_assembly_syntax.md R180 to R195). Text is a list of
characters. The assembler is software (00_scope.md R7): nothing here is reached by a step.
-/

namespace Sys2Proof.Machine

/-- Program text. -/
abbrev Text := List Char

/-- The assembler's error outcomes (R195), and `noEncoding` for text the spec gives no encoding
(92_eei_decisions.md D19, 93_implementation_defined.md U18). -/
inductive AsmError where
  | expectedEndOfInput
  | unexpectedEndOfInput
  | tokenTooLong
  | tooManyTokens
  | unknownMnemonic
  | expectedMnemonic
  | wrongOperandType
  | invalidOperand
  | unresolvedSymbol (name : Text)
  | noEncoding
  deriving DecidableEq, Repr

/-- The phases R195 groups the outcomes by. -/
inductive AsmPhase where
  | tokenizer | parser | link
  deriving DecidableEq, Repr

/-- The phase of an outcome (R195): a tokenizer or link error is fatal to the unit, a parser error to its statement.
`noEncoding` is none of R195's outcomes and refuses the whole unit (log entry 20 names what answers it). -/
def AsmError.phase : AsmError → Option AsmPhase
  | .expectedEndOfInput | .unexpectedEndOfInput | .tokenTooLong | .tooManyTokens => some .tokenizer
  | .unknownMnemonic | .expectedMnemonic | .wrongOperandType | .invalidOperand => some .parser
  | .unresolvedSymbol _ => some .link
  | .noEncoding => none

/-! ## Tokens -/

/-- A token (R181): its kind and its text without the sigil. -/
structure Token where
  kind : TokenKind
  text : Text
  deriving DecidableEq, Repr

/-- Whitespace is space, tab and newline (R181); a comma separates tokens like whitespace (R182). -/
def isSeparator (c : Char) : Bool := c == ' ' || c == '\t' || c == '\n' || c == ','

/-- At most 31 characters in a token (R183), its sigil counted (log entry 14). -/
def maxTokenLength : Nat := 31

/-- At most 4 tokens in a statement (R183). -/
def maxTokens : Nat := 4

/-- The token a run of characters is: its first character tells the kind (R181). -/
def tokenOf : Text → Token
  | '%' :: t => ⟨.register, t⟩
  | '$' :: t => ⟨.immediate, t⟩
  | '@' :: t => ⟨.labelRef, t⟩
  | t => ⟨.mnemonic, t⟩

/-- End the token read so far, if any, and only then check the limits of R183; both lists are held newest first. DESIGN
CHOICE (log entry 24): a token too long that is also one too many answers `tokenTooLong`. -/
def pushToken (cur : Text) (toks : List Token) : Except AsmError (List Token) :=
  if cur = [] then .ok toks
  else if maxTokenLength < cur.length then .error .tokenTooLong
  else if maxTokens ≤ toks.length then .error .tooManyTokens
  else .ok (tokenOf cur.reverse :: toks)

/-- Read one statement's tokens, and the text after its `;` (R181). A `;` with no token before it has no encoding
(log entry 16); a token ends at a separator or a `;` (log entry 15). DESIGN CHOICE (log entry 24): a token that the end of
the text cuts off answers `unexpectedEndOfInput`, whatever limit it breaks. -/
def scanStatement : Text → Text → List Token → Except AsmError (List Token × Text)
  | [], cur, toks =>
    if cur = [] ∧ toks = [] then .error .expectedEndOfInput else .error .unexpectedEndOfInput
  | c :: cs, cur, toks =>
    if c = ';' then
      match pushToken cur toks with
      | .error e => .error e
      | .ok [] => .error .noEncoding
      | .ok (t :: ts) => .ok ((t :: ts).reverse, cs)
    else if isSeparator c then
      match pushToken cur toks with
      | .error e => .error e
      | .ok ts => scanStatement cs [] ts
    else scanStatement cs (c :: cur) toks

/-! ## Operands -/

/-- The value of a digit character; hexadecimal digits in either case (log entry 18). -/
def digitValue (c : Char) : Option Nat :=
  let n := c.toNat
  if 48 ≤ n ∧ n ≤ 57 then some (n - 48)
  else if 97 ≤ n ∧ n ≤ 102 then some (n - 87)
  else if 65 ≤ n ∧ n ≤ 70 then some (n - 55)
  else none

/-- Digits in a base, most significant first, after the value `acc`. -/
def digitsFrom (base : Nat) : Text → Nat → Option Nat
  | [], acc => some acc
  | c :: cs, acc =>
    match digitValue c with
    | none => none
    | some d => if d < base then digitsFrom base cs (acc * base + d) else none

/-- One or more digits in a base. -/
def parseDigits (base : Nat) (t : Text) : Option Nat :=
  if t = [] then none else digitsFrom base t 0

/-- An integer literal (R187): `0x` hexadecimal, leading `0` octal, else decimal, consuming the whole text. -/
def parseLiteral : Text → Option Nat
  | '0' :: 'x' :: t => parseDigits 16 t
  | '0' :: t => digitsFrom 8 t 0
  | t => parseDigits 10 t

/-- A register name (R186): `gpr` and a decimal index; an index above 15 has no encoding (D19). -/
def parseRegister (t : Text) : Except AsmError Word :=
  match t with
  | 'g' :: 'p' :: 'r' :: ds =>
    match parseDigits 10 ds with
    | none => .error .invalidOperand
    | some n => if n < 16 then .ok (BitVec.ofNat 32 n) else .error .noEncoding
  | _ => .error .invalidOperand

/-- An immediate (R187); a value of 2^32 or more has no encoding (D19). -/
def parseImmediate (t : Text) : Except AsmError Word :=
  match parseLiteral t with
  | none => .error .invalidOperand
  | some n => if n < 2 ^ 32 then .ok (BitVec.ofNat 32 n) else .error .noEncoding

/-! ## Statements -/

/-- A parsed statement: its label, its instruction with placeholder 0 in a slot that awaits a symbol, and the symbol
dependency (R189, R191). -/
structure Stmt where
  label : Option Text
  ins   : Bundle
  dep   : Option (Slot × Text)
  deriving DecidableEq, Repr

/-- Write an operand slot. -/
def fillSlot (b : Bundle) (slot : Slot) (v : Word) : Bundle :=
  match slot with
  | .op0 => { b with op0 := v }
  | .op1 => { b with op1 := v }

/-- Put one operand token into its slot (R188, R191). -/
def fillOperand (st : Stmt) (o : OperandSpec) (tok : Token) : Except AsmError Stmt :=
  if o.kinds.contains tok.kind then
    match tok.kind with
    | .register =>
      match parseRegister tok.text with
      | .error e => .error e
      | .ok v => .ok { st with ins := fillSlot st.ins o.slot v }
    | .immediate =>
      match parseImmediate tok.text with
      | .error e => .error e
      | .ok v => .ok { st with ins := fillSlot st.ins o.slot v }
    | .labelRef => .ok { st with ins := fillSlot st.ins o.slot 0, dep := some (o.slot, tok.text) }
    | .mnemonic => .error .wrongOperandType
  else .error .wrongOperandType

/-- Put the operand tokens into their slots; too few or too many is WrongOperandType (log entry 17). DESIGN CHOICE (log
entry 26): operands are checked left to right and the first failure is the one named, so what a later operand or the
count would fail with is not looked at. -/
def fillOperands : Stmt → List OperandSpec → List Token → Except AsmError Stmt
  | st, [], [] => .ok st
  | st, o :: os, t :: ts =>
    match fillOperand st o t with
    | .error e => .error e
    | .ok st' => fillOperands st' os ts
  | _, _, _ => .error .wrongOperandType

/-- Parse the tokens of an instruction: a mnemonic of the ISA table and its operands (R180, R184, R188). DESIGN CHOICE (log
entry 25): a mnemonic in upper case is `unknownMnemonic`, fatal to its statement only. -/
def parseInstr (label : Option Text) : List Token → Except AsmError Stmt
  | ⟨.mnemonic, name⟩ :: ops =>
    match isaTable.find? (fun row => row.mnemonic == name) with
    | none => .error .unknownMnemonic
    | some row => fillOperands ⟨label, ⟨row.id, 0, 0, row.length⟩, none⟩ row.operands ops
  | _ => .error .expectedMnemonic

/-- Parse a statement's tokens: a first LabelRef is the label definition (R189). -/
def parseStatement : List Token → Except AsmError Stmt
  | ⟨.labelRef, name⟩ :: toks => parseInstr (some name) toks
  | toks => parseInstr none toks

/-- Assemble one statement at the head of a text: its parse and the text after it. An outer error ends the unit, an
inner one, always of the parser, its statement alone (R195). -/
def assembleStatement (t : Text) : Except AsmError (Except AsmError Stmt × Text) :=
  match scanStatement t [] [] with
  | .error e => .error e
  | .ok (toks, rest) =>
    match parseStatement toks with
    | .error .noEncoding => .error .noEncoding
    | r => .ok (r, rest)

/-- What the first pass finds: the statements that parse, each with its address, and the parser errors of the others,
both in text order. -/
structure Parsed where
  stmts  : List (Nat × Stmt)
  errors : List AsmError
  deriving DecidableEq, Repr

/-- The bytes a statement adds to the running program counter (R190): a statement with a parser error has no instruction
and adds none (log entry 20). -/
def parsedLength (r : Except AsmError Stmt) : Nat :=
  match r with
  | .error _ => 0
  | .ok st => st.ins.length

/-- Put a statement at address `pc` before those found after it. -/
def Parsed.add (p : Parsed) (pc : Nat) (r : Except AsmError Stmt) : Parsed :=
  match r with
  | .error e => { p with errors := e :: p.errors }
  | .ok st => { p with stmts := (pc, st) :: p.stmts }

/-- The first pass: the statements of a text with their addresses, the running program counter being the sum of the
lengths before (R190). It goes on past a parser error and ends at a tokenizer error (R195). Each statement takes at least
one character, so `fuel` above the text's length is enough. -/
def firstPass : Nat → Text → Nat → Except AsmError Parsed
  | 0, _, _ => .error .unexpectedEndOfInput
  | fuel + 1, t, pc =>
    match assembleStatement t with
    | .error .expectedEndOfInput => .ok ⟨[], []⟩
    | .error e => .error e
    | .ok (r, rest) =>
      match firstPass fuel rest (pc + parsedLength r) with
      | .error e => .error e
      | .ok p => .ok (p.add pc r)

/-! ## The link pass and the image -/

/-- The label set: each label with the address of its statement (R189, R190). -/
def labelsOf (sts : List (Nat × Stmt)) : List (Text × Nat) :=
  sts.filterMap (fun p => p.2.label.map (fun name => (name, p.1)))

/-- Resolve one statement against the label set (R192). -/
def linkStatement (labels : List (Text × Nat)) (st : Stmt) : Except AsmError Bundle :=
  match st.dep with
  | none => .ok st.ins
  | some (slot, name) =>
    match labels.lookup name with
    | none => .error (.unresolvedSymbol name)
    | some a => .ok (fillSlot st.ins slot (BitVec.ofNat 32 a))

/-- The bytes of the statements after the link pass (R193). -/
def linkImage (labels : List (Text × Nat)) : List (Nat × Stmt) → Except AsmError (List Byte)
  | [] => .ok []
  | (_, st) :: sts =>
    match linkStatement labels st with
    | .error e => .error e
    | .ok b =>
      match encode b.instr, linkImage labels sts with
      | _, .error e => .error e
      | none, _ => .error .noEncoding
      | some bs, .ok rest => .ok (bs ++ rest)

/-- The link pass over a unit's statements. Two definitions of one label have no encoding (U18, log entry 21). -/
def linkUnit (sts : List (Nat × Stmt)) : Except AsmError (List Byte) :=
  if ((labelsOf sts).map Prod.fst).Nodup then linkImage (labelsOf sts) sts else .error .noEncoding

/-- An assembled unit: the bytes of the statements that parse, and the parser errors of the others in text order. -/
structure Assembled where
  image  : List Byte
  errors : List AsmError
  deriving DecidableEq, Repr

/-- Assemble a unit: both passes over its text. Every statement without a parser error is assembled, whatever errors
stand before it (R195). DESIGN CHOICE (log entry 27): the link pass runs where there are parser errors too, and an error
that ends the unit is then the whole answer, the parser errors not reported. -/
def assembleUnit (t : Text) : Except AsmError Assembled :=
  match firstPass (t.length + 1) t 0 with
  | .error e => .error e
  | .ok p =>
    match linkUnit p.stmts with
    | .error e => .error e
    | .ok bs => .ok ⟨bs, p.errors⟩

/-- The image of a program text (R193): there is one only where every statement gives an instruction. An error that ends
the unit is the answer before any parser error (log entry 27), and else the first parser error (log entry 20). -/
def assemble (t : Text) : Except AsmError (List Byte) :=
  match assembleUnit t with
  | .error e => .error e
  | .ok ⟨bs, []⟩ => .ok bs
  | .ok ⟨_, e :: _⟩ => .error e

end Sys2Proof.Machine
end

