-- ==== Sys2Proof/Machine/Disasm.lean ====
section
/-!
DEFINITION. Machine/Disasm.lean: the canonical text of an instruction (48_assembly_syntax.md R196, R197).
-/

namespace Sys2Proof.Machine

/-- The lowercase digit characters. -/
def digitChars : Text := ['0', '1', '2', '3', '4', '5', '6', '7', '8', '9', 'a', 'b', 'c', 'd', 'e', 'f']

/-- The digit character of a value below 16. -/
def digitChar (d : Nat) : Char := digitChars.getD d '0'

/-- The digits of `n` in a base, most significant first, no leading zeros, 0 as one digit, before `acc`; at most `fuel`
digits. -/
def renderDigits (base : Nat) : Nat → Nat → Text → Text
  | 0, _, acc => acc
  | fuel + 1, n, acc =>
    if n / base = 0 then digitChar (n % base) :: acc
    else renderDigits base fuel (n / base) (digitChar (n % base) :: acc)

/-- A register operand: `%gprN`, N in decimal (R196). -/
def registerText (r : Reg) : Text := ['%', 'g', 'p', 'r'] ++ renderDigits 10 2 r.toNat []

/-- An immediate or address: `$0x` and lowercase hexadecimal, unpadded; 0 is `$0x0` (R196). -/
def immediateText (v : Word) : Text := ['$', '0', 'x'] ++ renderDigits 16 8 v.toNat []

/-- A statement of a mnemonic and one operand. -/
def oneOperandText (id : InstrId) (a : Text) : Text := id.mnemonic ++ ' ' :: (a ++ [';'])

/-- A statement of a mnemonic and two operands, separated by a comma and one space. -/
def twoOperandText (id : InstrId) (a b : Text) : Text := id.mnemonic ++ ' ' :: (a ++ ',' :: ' ' :: (b ++ [';']))

/-- The canonical text (R196); Invalid is the token `<invalid>` with no `;` (R197). -/
def disassemble : Instr → Text
  | .nop => InstrId.nop.mnemonic ++ [';']
  | .sti reg imm => twoOperandText .sti (registerText reg) (immediateText imm)
  | .jmpabs addr => oneOperandText .jmpabs (immediateText addr)
  | .push reg => oneOperandText .push (registerText reg)
  | .pop reg => oneOperandText .pop (registerText reg)
  | .mov dst src => twoOperandText .mov (registerText dst) (registerText src)
  | .xor dst src => twoOperandText .xor (registerText dst) (registerText src)
  | .add dst src => twoOperandText .add (registerText dst) (registerText src)
  | .invalid => InstrId.invalid.mnemonic

end Sys2Proof.Machine
end

