-- ==== Sys2Proof/Safety.lean ====
section
/-!
DEFINITION. Safety.lean: what counts as a sound state and a safe run, in the terms claims use.
-/

namespace Sys2Proof

/-- The general register an instruction writes, if any (10_state.md R38). -/
def Instr.writesGpr : Instr → Option Reg
  | .sti reg _ => some reg
  | .pop reg => some reg
  | .mov dst _ => some dst
  | .xor dst _ => some dst
  | .add dst _ => some dst
  | .nop | .jmpabs _ | .push _ | .invalid => none

end Sys2Proof

namespace Sys2Proof.Machine

/-- What every reachable state satisfies: memory is in its canonical form and lies below MEM_SIZE (20_memory.md R51),
`retr` is 0 (10_state.md R24), and bits 15 to 2 of `flagr` are 0 (R30). -/
abbrev State.Inv (s : State) : Prop :=
  s.mem.wf ∧ (∀ c ∈ s.mem, c.1 < s.memSize) ∧ s.retr = 0 ∧ s.flagr &&& 0xfffc = 0

/-- The launch premises P-regs, P-spr, P-mem and P-run (70_reset_and_hazards.md R239) for the parameters `p`; P-size
holds of every `p`. -/
abbrev State.Launched (s : State) (p : Config.Params) : Prop :=
  (∀ r, s.getGpr r = 0) ∧ s.retr = 0 ∧ s.flagr = 0 ∧ s.ipr = 0 ∧ s.spr = p.sprInit ∧
    s.memSize = p.memSize ∧ (∀ a < p.memSize, s.mem.read a = p.memInit a) ∧ s.run = .running

/-- `k` steps from a state, stopping at the first that gives no next state: `Host.Core.run` of the machine
(70_reset_and_hazards.md R237). -/
def runFor (k : Nat) (s : State) : Host.Outcome State Fault Refusal := Host.Core.run Sys2Proof.core k s

/-- DEC's `id` output in the step at `s`, where a whole instruction is fetched (60_exceptions.md R215). -/
def decodedId (s : State) : Option InstrId :=
  match fetchInstr s with
  | .ok i => some i.id
  | .error _ => none

/-- The premise of R215 for one step: it does not decode Invalid. -/
abbrev State.NotInvalid (s : State) : Prop := decodedId s ≠ some .invalid

/-- The instruction at `ipr` of a running core is `i`, all its bytes inside memory. -/
abbrev State.At (s : State) (i : Instr) : Prop := s.run = .running ∧ fetchInstr s = .ok i

/-- "Stops raised: FetchOutOfRange(ipr)" of an instruction's rule (60_exceptions.md R213): a running core at `ipr`,
where the first byte, if it lies inside memory, is `b0`, and `n` bytes do not fit in memory, stops there. -/
def StopsWhenCut (b0 : Byte) (n : Nat) : Prop :=
  ∀ s : State, s.run = .running → (s.ipr.toNat < s.memSize → s.mem.read s.ipr.toNat = b0) →
    s.memSize < s.ipr.toNat + n → step s = .next (s.raise ⟨.fetchOutOfRange, s.ipr⟩)

end Sys2Proof.Machine
end

