-- ==== Sys2Proof/Certificates/Slice0/Obligations.lean ====
section
/-!
DEFINITION. Certificates/Slice0/Obligations.lean: the statements for the provers. Each docstring names the rule of spec/
it formalises; where the rule is the spec's own decision the docstring says so.
-/

open Sys2Proof Sys2Proof.Machine

/-! ## Encoding and decoding -/

/-- R99, whole: every well-formed bundle encodes to `length` bytes that decode back to it field for field; every byte
string whose first byte matches an entry re-encodes to its own first `length` bytes; and Invalid alone has length 0
while the sequencer steps over 1 byte. -/
def Obligations.DecodeInvertsEncode : Prop :=
  (∀ b : Bundle, b.wellFormed = true →
    ∃ bs, encode b.instr = some bs ∧ bs.length = b.length ∧
      ∀ rest, decode (bs ++ rest) = .ok (b.instr, rest) ∧ (decBytes (bs ++ rest)).bundle = b) ∧
  (∀ i : Instr, i.wellFormed = true →
    ∃ bs, encode i = some bs ∧ bs.length = i.length ∧ ∀ rest, decode (bs ++ rest) = .ok (i, rest)) ∧
  (∀ bs i rest, decode bs = .ok (i, rest) → i ≠ .invalid →
    encode i = some (bs.take i.length) ∧ rest = bs.drop i.length) ∧
  (∀ i : Instr, i.length = 0 ↔ i = .invalid) ∧ Instr.invalid.size = 1

/-- R111, whole: DEC's bundle is the decode function, arm by arm, slots and lengths included. -/
def Obligations.DecIsTheDecodeFunction : Prop :=
  ∀ b0 b1 b2 b3 b4 : Byte,
    (dec b0 b1 b2 b3 b4).bundle =
      if b0 = 0x90 then ⟨.nop, 0, 0, 1⟩
      else if b0 &&& 0xf0 = 0x70 then ⟨.sti, le32 b1 b2 b3 b4, (b0.extractLsb' 0 4).setWidth 32, 5⟩
      else if b0 = 0x91 then ⟨.jmpabs, le32 b1 b2 b3 b4, 0, 5⟩
      else if b0 &&& 0xf0 = 0x50 then ⟨.push, (b0.extractLsb' 0 4).setWidth 32, 0, 1⟩
      else if b0 &&& 0xf0 = 0x60 then ⟨.pop, (b0.extractLsb' 0 4).setWidth 32, 0, 1⟩
      else if b0 = 0xc0 then ⟨.mov, (b1.extractLsb' 4 4).setWidth 32, (b1.extractLsb' 0 4).setWidth 32, 2⟩
      else if b0 = 0xa0 then ⟨.xor, (b1.extractLsb' 4 4).setWidth 32, (b1.extractLsb' 0 4).setWidth 32, 2⟩
      else if b0 = 0xa1 then ⟨.add, (b1.extractLsb' 4 4).setWidth 32, (b1.extractLsb' 0 4).setWidth 32, 2⟩
      else ⟨.invalid, 0, 0, 0⟩

/-- R92, whole: the first byte alone fixes the id, and with it format and length, by the rule's table, whatever bytes
follow. -/
def Obligations.FirstByteFixesIdFormatLength : Prop :=
  ∀ (b0 : Byte) (rest : List Byte),
    ((decBytes (b0 :: rest)).id, (decBytes (b0 :: rest)).id.format, (decBytes (b0 :: rest)).bundle.length) =
      if 0x50 ≤ b0 ∧ b0 ≤ 0x5f then (.push, .r, 1)
      else if 0x60 ≤ b0 ∧ b0 ≤ 0x6f then (.pop, .r, 1)
      else if 0x70 ≤ b0 ∧ b0 ≤ 0x7f then (.sti, .ri, 5)
      else if b0 = 0x90 then (.nop, .o, 1)
      else if b0 = 0x91 then (.jmpabs, .a, 5)
      else if b0 = 0xa0 then (.xor, .rr, 2)
      else if b0 = 0xa1 then (.add, .rr, 2)
      else if b0 = 0xc0 then (.mov, .rr, 2)
      else (.invalid, .none, 0)

/-- R93, whole: the first bytes that decode to Invalid are exactly the five ranges, 203 values, and the bundle is then
`[0, 0]` with length 0. -/
def Obligations.UnmatchedFirstBytesAreInvalid : Prop :=
  (∀ (b0 : Byte) (rest : List Byte),
    (decBytes (b0 :: rest) = .invalid ↔
      b0 ≤ 0x4f ∨ (0x80 ≤ b0 ∧ b0 ≤ 0x8f) ∨ (0x92 ≤ b0 ∧ b0 ≤ 0x9f) ∨ (0xa2 ≤ b0 ∧ b0 ≤ 0xbf) ∨ 0xc1 ≤ b0)) ∧
  Instr.invalid.bundle = ⟨.invalid, 0, 0, 0⟩ ∧
  ((List.range 256).filter (fun n => decBytes [BitVec.ofNat 8 n] = .invalid)).length = 203

/-- R91, whole: no first byte matches two entries of the ISA table, so the first match, in this or any other order of
the table, is the one decoding uses. -/
def Obligations.IsaTableRowsExclusive : Prop :=
  (∀ b0 : Byte, isaTable.Pairwise (fun r q => ¬ (r.accepts b0 = true ∧ q.accepts b0 = true))) ∧
  ∀ (b0 : Byte) (rest : List Byte) (table : List IsaRow), table.Perm isaTable →
    match table.find? (·.accepts b0) with
    | some row =>
      (decBytes (b0 :: rest)).id = row.id ∧ (decBytes (b0 :: rest)).length = row.length ∧
        (decBytes (b0 :: rest)).id.format = row.format
    | none => decBytes (b0 :: rest) = .invalid

/-- 40_decoder_and_sequencer.md R112, derived by the spec: bytes beyond the decoded length do not affect the result. -/
def Obligations.BytesBeyondLengthIgnored : Prop :=
  ∀ bs cs : List Byte, bs ≠ [] → bs.take (decBytes bs).size = cs.take (decBytes bs).size →
    (decBytes bs).size ≤ bs.length → decBytes cs = decBytes bs

/-- A few words written out from the vectors of 95_test_vectors.md section 2.1, in the opcode table's numbering. -/
def Obligations.VectorWordsDecode : Prop :=
  decodeTableWord 8 0x90 = some .nop ∧
  decodeTableWord 40 0xdd0000ff72 = some (.sti 2 0xdd0000ff) ∧
  decodeTableWord 40 0x123456787f = some (.sti 15 0x12345678) ∧
  decodeTableWord 40 0x0000001491 = some (.jmpabs 0x14) ∧
  decodeTableWord 8 0x5f = some (.push 15) ∧
  decodeTableWord 8 0x66 = some (.pop 6) ∧
  decodeTableWord 16 0x42c0 = some (.mov 4 2) ∧
  decodeTableWord 16 0x12a0 = some (.xor 1 2) ∧
  decodeTableWord 16 0xfea1 = some (.add 15 14) ∧
  decodeTableWord 8 0xff = some .invalid

/-! ## The instructions -/

/-- R140, whole: NOP's encoding and text, its only effect the advance of `ipr` by 1, and its only stop. -/
def Obligations.NopRule : Prop :=
  encode .nop = some [0x90] ∧ Instr.nop.bundle = ⟨.nop, 0, 0, 1⟩ ∧ disassemble .nop = "nop;".toList ∧
  StopsWhenCut 0x90 1 ∧
  ∀ s : State, exec .nop s = .next { s with ipr := s.ipr + 1 }

/-- R142, whole, its encoding and text included: JMPABS writes its operand to `ipr` and nothing else, adds no length, checks no target; a target outside
memory, or where the instruction does not fit, is stopped by the next step's fetch. -/
def Obligations.JmpabsRule : Prop :=
  ∀ addr : Word,
    encode (.jmpabs addr) = some [0x91#8, addr.extractLsb' 0 8, addr.extractLsb' 8 8, addr.extractLsb' 16 8,
      addr.extractLsb' 24 8] ∧
    (Instr.jmpabs addr).bundle = ⟨.jmpabs, addr, 0, 5⟩ ∧
    disassemble (.jmpabs addr) = "jmpabs ".toList ++ immediateText addr ++ ";".toList ∧
    StopsWhenCut 0x91 5 ∧
    ∀ s : State, exec (.jmpabs addr) s = .next { s with ipr := addr } ∧
      (s.run = .running →
        s.memSize < addr.toNat + (decBytes [s.mem.read addr.toNat]).size →
          step { s with ipr := addr } =
            .next { s with ipr := addr, run := .stopped ⟨.fetchOutOfRange, addr⟩ })

/-- R144, whole (the advance by one byte is the spec's decision D6): Invalid changes nothing, advances `ipr` by 1, does
not stop the core, has no encoding and prints as `<invalid>`; at a matching byte in memory a step does this and DEC's id is Invalid. -/
def Obligations.InvalidRule : Prop :=
  Instr.invalid.bundle = ⟨.invalid, 0, 0, 0⟩ ∧ encode .invalid = none ∧
  disassemble .invalid = "<invalid>".toList ∧
  (∀ s : State, exec .invalid s = .next { s with ipr := s.ipr + 1 }) ∧
  ∀ b0 : Byte,
    (b0 ≤ 0x4f ∨ (0x80 ≤ b0 ∧ b0 ≤ 0x8f) ∨ (0x92 ≤ b0 ∧ b0 ≤ 0x9f) ∨ (0xa2 ≤ b0 ∧ b0 ≤ 0xbf) ∨ 0xc1 ≤ b0) →
    StopsWhenCut b0 1 ∧
    ∀ s : State, s.run = .running → s.ipr.toNat < s.memSize → s.mem.read s.ipr.toNat = b0 →
      step s = .next { s with ipr := s.ipr + 1 } ∧ decodedId s = some .invalid

/-- R150, whole: STI's encoding, slots and text, `x[reg]` = imm32, `ipr` + 5, nothing else, and its only stop. -/
def Obligations.StiRule : Prop :=
  ∀ (reg : Reg) (imm : Word),
    encode (.sti reg imm) = some [0x70#8 ||| reg.setWidth 8, imm.extractLsb' 0 8, imm.extractLsb' 8 8,
      imm.extractLsb' 16 8, imm.extractLsb' 24 8] ∧
    (Instr.sti reg imm).bundle = ⟨.sti, imm, reg.setWidth 32, 5⟩ ∧
    disassemble (.sti reg imm) =
      "sti ".toList ++ registerText reg ++ ", ".toList ++ immediateText imm ++ ";".toList ∧
    StopsWhenCut (0x70 ||| reg.setWidth 8) 5 ∧
    ∀ s : State, ∃ t, exec (.sti reg imm) s = .next t ∧
      (∀ q, t.getGpr q = if q = reg then imm else s.getGpr q) ∧
      t.ipr = s.ipr + 5 ∧ t.spr = s.spr ∧ t.retr = s.retr ∧ t.flagr = s.flagr ∧ t.run = s.run ∧
      t.memSize = s.memSize ∧ ∀ a, t.mem.read a = s.mem.read a

/-- R152, whole: MOV's encoding, slots and text, `x[dst]` = the old `x[src]`, `ipr` + 2, nothing else, and its only stop; with
dst = src only `ipr` changes. -/
def Obligations.MovRule : Prop :=
  ∀ dst src : Reg,
    encode (.mov dst src) = some [0xc0#8, dst.setWidth 8 <<< 4 ||| src.setWidth 8] ∧
    (Instr.mov dst src).bundle = ⟨.mov, dst.setWidth 32, src.setWidth 32, 2⟩ ∧
    disassemble (.mov dst src) =
      "mov ".toList ++ registerText dst ++ ", ".toList ++ registerText src ++ ";".toList ∧
    StopsWhenCut 0xc0 2 ∧
    ∀ s : State, ∃ t, exec (.mov dst src) s = .next t ∧
      (∀ q, t.getGpr q = if q = dst then s.getGpr src else s.getGpr q) ∧
      t.ipr = s.ipr + 2 ∧ t.spr = s.spr ∧ t.retr = s.retr ∧ t.flagr = s.flagr ∧ t.run = s.run ∧
      t.memSize = s.memSize ∧ (∀ a, t.mem.read a = s.mem.read a) ∧
      (dst = src → t = { s with ipr := s.ipr + 2 })

/-- R170, whole: XOR's encoding, slots and text, its result from the old operands, all 16 bits of `flagr` (Carry cleared, Zero set
exactly when the operands were equal), `ipr` + 2, nothing else, and its only stop; with dst = src the result is 0. -/
def Obligations.XorRule : Prop :=
  ∀ dst src : Reg,
    encode (.xor dst src) = some [0xa0#8, dst.setWidth 8 <<< 4 ||| src.setWidth 8] ∧
    (Instr.xor dst src).bundle = ⟨.xor, dst.setWidth 32, src.setWidth 32, 2⟩ ∧
    disassemble (.xor dst src) =
      "xor ".toList ++ registerText dst ++ ", ".toList ++ registerText src ++ ";".toList ∧
    StopsWhenCut 0xa0 2 ∧
    ∀ s : State, ∃ t, exec (.xor dst src) s = .next t ∧
      (∀ q, t.getGpr q = if q = dst then s.getGpr dst ^^^ s.getGpr src else s.getGpr q) ∧
      t.flagr = (if s.getGpr dst = s.getGpr src then 0x0002 else 0x0000) ∧
      t.carry = false ∧ (t.zero = true ↔ t.getGpr dst = 0) ∧
      t.ipr = s.ipr + 2 ∧ t.spr = s.spr ∧ t.retr = s.retr ∧ t.run = s.run ∧
      t.memSize = s.memSize ∧ (∀ a, t.mem.read a = s.mem.read a) ∧
      (dst = src → t.getGpr dst = 0 ∧ t.flagr = 0x0002)

/-- R172, whole: ADD's encoding, slots and text, the sum modulo 2^32 of the old operands, Carry exactly when the integer sum does not
fit in 32 bits, Zero exactly when the 32-bit result is 0, the other bits 0, no carry-in, `ipr` + 2, nothing else, and
its only stop; with dst = src the register doubles and Carry is the old bit 31. -/
def Obligations.AddRule : Prop :=
  ∀ dst src : Reg,
    encode (.add dst src) = some [0xa1#8, dst.setWidth 8 <<< 4 ||| src.setWidth 8] ∧
    (Instr.add dst src).bundle = ⟨.add, dst.setWidth 32, src.setWidth 32, 2⟩ ∧
    disassemble (.add dst src) =
      "add ".toList ++ registerText dst ++ ", ".toList ++ registerText src ++ ";".toList ∧
    StopsWhenCut 0xa1 2 ∧
    ∀ s : State, ∃ t, exec (.add dst src) s = .next t ∧
      (∀ q, (t.getGpr q).toNat =
        if q = dst then ((s.getGpr dst).toNat + (s.getGpr src).toNat) % 2 ^ 32 else (s.getGpr q).toNat) ∧
      (t.carry = true ↔ 2 ^ 32 ≤ (s.getGpr dst).toNat + (s.getGpr src).toNat) ∧
      (t.zero = true ↔ t.getGpr dst = 0) ∧ t.flagr &&& 0xfffc = 0 ∧
      t.ipr = s.ipr + 2 ∧ t.spr = s.spr ∧ t.retr = s.retr ∧ t.run = s.run ∧
      t.memSize = s.memSize ∧ (∀ a, t.mem.read a = s.mem.read a) ∧
      (dst = src → t.getGpr dst = s.getGpr dst <<< 1 ∧ t.carry = (s.getGpr dst).getLsbD 31)

/-- R160, whole: PUSH's encoding, slots and text; exactly when `4 <= spr <= MEM_SIZE`, or `spr` = 0 with MEM_SIZE = 2^32, it stores
`x[reg]` little-endian at `spr - 4`, writes that address to `spr` and advances `ipr` by 1, changing nothing else;
otherwise it stops with the decremented address and writes nothing. -/
def Obligations.PushRule : Prop :=
  ∀ reg : Reg,
    encode (.push reg) = some [0x50#8 ||| reg.setWidth 8] ∧
    (Instr.push reg).bundle = ⟨.push, reg.setWidth 32, 0, 1⟩ ∧
    disassemble (.push reg) = "push ".toList ++ registerText reg ++ ";".toList ∧
    StopsWhenCut (0x50 ||| reg.setWidth 8) 1 ∧
    ∀ s : State,
      (((4 ≤ s.spr.toNat ∧ s.spr.toNat ≤ s.memSize) ∨ (s.spr = 0 ∧ s.memSize = 2 ^ 32)) →
        ∃ t, exec (.push reg) s = .next t ∧
          t.spr = s.spr - 4 ∧ t.ipr = s.ipr + 1 ∧ (∀ q, t.getGpr q = s.getGpr q) ∧
          t.mem.read (s.spr - 4).toNat = (s.getGpr reg).extractLsb' 0 8 ∧
          t.mem.read ((s.spr - 4).toNat + 1) = (s.getGpr reg).extractLsb' 8 8 ∧
          t.mem.read ((s.spr - 4).toNat + 2) = (s.getGpr reg).extractLsb' 16 8 ∧
          t.mem.read ((s.spr - 4).toNat + 3) = (s.getGpr reg).extractLsb' 24 8 ∧
          (∀ a, a < (s.spr - 4).toNat ∨ (s.spr - 4).toNat + 4 ≤ a → t.mem.read a = s.mem.read a) ∧
          t.retr = s.retr ∧ t.flagr = s.flagr ∧ t.run = s.run ∧ t.memSize = s.memSize) ∧
      (¬ ((4 ≤ s.spr.toNat ∧ s.spr.toNat ≤ s.memSize) ∨ (s.spr = 0 ∧ s.memSize = 2 ^ 32)) →
        s.memSize < (s.spr - 4).toNat + 4 ∧
        exec (.push reg) s = .next { s with run := .stopped ⟨.dataOutOfRange, s.spr - 4⟩ })

/-- R163, whole: POP's encoding, slots and text; when the four bytes at `spr` lie inside memory it loads them little-endian into
`x[reg]`, adds 4 to `spr` modulo 2^32 and advances `ipr` by 1, changing nothing else; otherwise it stops with `spr` and
writes nothing. -/
def Obligations.PopRule : Prop :=
  ∀ reg : Reg,
    encode (.pop reg) = some [0x60#8 ||| reg.setWidth 8] ∧
    (Instr.pop reg).bundle = ⟨.pop, reg.setWidth 32, 0, 1⟩ ∧
    disassemble (.pop reg) = "pop ".toList ++ registerText reg ++ ";".toList ∧
    StopsWhenCut (0x60 ||| reg.setWidth 8) 1 ∧
    ∀ s : State,
      (s.spr.toNat + 4 ≤ s.memSize →
        ∃ t, exec (.pop reg) s = .next t ∧
          (∀ q, t.getGpr q =
            if q = reg then
              s.mem.read (s.spr.toNat + 3) ++ s.mem.read (s.spr.toNat + 2) ++ s.mem.read (s.spr.toNat + 1) ++
                s.mem.read s.spr.toNat
            else s.getGpr q) ∧
          t.spr.toNat = (s.spr.toNat + 4) % 2 ^ 32 ∧ t.ipr = s.ipr + 1 ∧
          t.retr = s.retr ∧ t.flagr = s.flagr ∧ t.run = s.run ∧ t.memSize = s.memSize ∧
          ∀ a, t.mem.read a = s.mem.read a) ∧
      (s.memSize < s.spr.toNat + 4 →
        exec (.pop reg) s = .next { s with run := .stopped ⟨.dataOutOfRange, s.spr⟩ })

/-- The flag outcomes in full of 44_alu.md section 3 (its table is derived by the spec from R170 and R172). -/
def Obligations.FlagOutcomeTable : Prop :=
  ∀ (dst src : Reg) (s : State),
    let p := (s.getGpr dst).toNat
    let q := (s.getGpr src).toNat
    (∃ t, exec (.add dst src) s = .next t ∧
      ((t.getGpr dst).toNat, t.flagr) =
        if p + q = 0 then (0, 0x0002)
        else if p + q < 2 ^ 32 then (p + q, 0x0000)
        else if p + q = 2 ^ 32 then (0, 0x0003)
        else (p + q - 2 ^ 32, 0x0001)) ∧
    (∃ t, exec (.xor dst src) s = .next t ∧ (t.getGpr dst).toNat = p ^^^ q ∧
      t.flagr = if p = q then 0x0002 else 0x0000)

/-! ## Memory and the stack -/

/-- R59, whole (the bound is the spec's decision D8): MemWrite raises exactly when the integer sum exceeds MEM_SIZE, and
otherwise stores each byte at its address and leaves every other byte alone. -/
def Obligations.MemWriteStoresExactlyItsBytes : Prop :=
  ∀ (s : State) (a : Word) (bs : List Byte),
    (s.memSize < a.toNat + bs.length → memWrite s a bs = .error ⟨.dataOutOfRange, a⟩) ∧
    (a.toNat + bs.length ≤ s.memSize → ∃ m, memWrite s a bs = .ok m ∧
      (∀ k, k < bs.length → m.read (a.toNat + k) = bs.getD k 0) ∧
      (∀ x, x < a.toNat ∨ a.toNat + bs.length ≤ x → m.read x = s.mem.read x))

/-- R58, whole (the bound is the spec's decision D8): MemRead raises exactly when the integer sum exceeds MEM_SIZE, and
otherwise returns the bytes, lowest address first. Fetch does the same with its own cause (R60, D7). -/
def Obligations.ReadsReturnBytesInOrder : Prop :=
  ∀ (s : State) (a : Word) (n : Nat),
    (s.memSize < a.toNat + n →
      memRead s a n = .error ⟨.dataOutOfRange, a⟩ ∧ fetchBytes s a n = .error ⟨.fetchOutOfRange, a⟩) ∧
    (a.toNat + n ≤ s.memSize → ∃ bs, memRead s a n = .ok bs ∧ fetchBytes s a n = .ok bs ∧ bs.length = n ∧
      ∀ k, k < n → bs.getD k 0 = s.mem.read (a.toNat + k))

/-- 43_stack.md section 3 (derived by the spec): a completed PUSH of A and then a POP into B gives B the old value of A,
restores `spr`, and leaves the four bytes; the POP cannot raise. -/
def Obligations.PushThenPop : Prop :=
  ∀ (ra rb : Reg) (s t : State), exec (.push ra) s = .next t → t.run = .running →
    ∃ u, exec (.pop rb) t = .next u ∧ u.run = .running ∧
      (∀ q, u.getGpr q = if q = rb then s.getGpr ra else s.getGpr q) ∧ u.spr = s.spr ∧
      u.mem = t.mem ∧ u.mem.readBytes (s.spr - 4).toNat 4 = leBytes (s.getGpr ra) ∧
      u.flagr = s.flagr ∧ u.retr = s.retr

/-- 95_test_vectors.md section 2.4: a completed POP and then a PUSH of the same register is the identity on memory,
`spr` and the register, on a memory in its canonical form. -/
def Obligations.PopThenPush : Prop :=
  ∀ (r : Reg) (s t : State), s.mem.wf → exec (.pop r) s = .next t → t.run = .running →
    ∃ u, exec (.push r) t = .next u ∧ u.run = .running ∧ u.mem = s.mem ∧ u.spr = s.spr ∧
      ∀ q, u.getGpr q = t.getGpr q

/-- R71, whole (the spec's decision D14): after a completed PUSH every stored byte is what a fetch at its address returns,
and when the next step's `ipr` points at one of them that step decodes it; a PUSH that overwrites its own opcode byte
still completes as itself. -/
def Obligations.StoresAreSeenByTheNextFetch : Prop :=
  ∀ (reg : Reg) (s t : State), s.At (.push reg) → step s = .next t → t.run = .running →
    exec (.push reg) s = .next t ∧
    ∀ k, k < 4 →
      fetchBytes t (t.spr + BitVec.ofNat 32 k) 1 = .ok [byteOf (s.getGpr reg) k] ∧
      (t.ipr = t.spr + BitVec.ofNat 32 k → ∀ i, fetchInstr t = .ok i →
        i.id = (decBytes [byteOf (s.getGpr reg) k]).id)

/-- The model's own data form (log entry 4): two memories in canonical form that read alike are the same data. -/
def Obligations.CanonicalMemoriesReadAlikeAreEqual : Prop :=
  ∀ m n : Memory, m.wf → n.wf → (∀ a, m.read a = n.read a) → m = n

/-! ## The step -/

/-- A step runs the decoded instruction: with the bytes at `ipr` of a running core inside memory and decoding to `i`,
the step is `exec i`, which also writes `ipr`. -/
def Obligations.StepRunsTheDecodedInstruction : Prop :=
  ∀ (s : State) (i : Instr), s.run = .running → s.ipr.toNat + i.size ≤ s.memSize →
    decBytes (s.mem.readBytes s.ipr.toNat i.size) = i → step s = exec i s

/-- R118, whole (the spec's decisions D5, D6, D7): while Running, a step stops with FetchOutOfRange when `ipr` is at
or above MEM_SIZE or the `n` bytes the first byte asks for do not fit, and else executes what the `n` bytes decode to;
a stopped core does not step. -/
def Obligations.StepFetchesDecodesExecutes : Prop :=
  ∀ s : State,
    let a := s.ipr
    let n := (dec (s.mem.read a.toNat) 0 0 0 0).size
    (∀ why, s.run = .stopped why → step s = .fault (.stopped why)) ∧
    (s.run = .running →
      (s.memSize ≤ a.toNat → step s = .next { s with run := .stopped ⟨.fetchOutOfRange, a⟩ }) ∧
      (s.memSize < a.toNat + n → step s = .next { s with run := .stopped ⟨.fetchOutOfRange, a⟩ }) ∧
      (a.toNat + n ≤ s.memSize →
        step s = exec (decBytes (s.mem.readBytes a.toNat n)) s ∧
        ∀ t, step s = .next t → t.run = .running →
          t.ipr = match decBytes (s.mem.readBytes a.toNat n) with
            | .jmpabs addr => addr
            | _ => a + BitVec.ofNat 32 n))

/-- R120, whole (the spec's decisions D5, D9): after a completed step `ipr` is the JMPABS operand, and otherwise
`(a + length) mod 2^32`, `(a + 1) mod 2^32` for Invalid. -/
def Obligations.NextIpr : Prop :=
  ∀ (s t : State) (i : Instr), s.At i → step s = .next t → t.run = .running →
    t.ipr.toNat = match i with
      | .jmpabs addr => addr.toNat
      | .invalid => (s.ipr.toNat + 1) % 2 ^ 32
      | j => (s.ipr.toNat + j.length) % 2 ^ 32

/-- R212, whole (the spec's decision D12): a step that raises writes nothing but `run`, and no further step happens. -/
def Obligations.RaiseWritesNothing : Prop :=
  ∀ (s t : State) (why : Stop), step s = .next t → t.run = .stopped why →
    s.run = .running ∧ t = { s with run := .stopped why } ∧
    ∀ k, runFor (k + 1) t = .fault (.stopped why)

/-- R211, whole (the spec's decisions D7, D8, D21): the two causes, their codes, exactly when each is raised, and the
address each records. -/
def Obligations.StopCausesExactly : Prop :=
  StopCause.fetchOutOfRange.code = 1 ∧ StopCause.dataOutOfRange.code = 2 ∧
  ∀ s : State, s.run = .running → ∀ why : Stop,
    (step s = .next { s with run := .stopped why } ↔
      (why = ⟨.fetchOutOfRange, s.ipr⟩ ∧
        (s.memSize < s.ipr.toNat + 1 ∨ s.memSize < s.ipr.toNat + (decBytes [s.mem.read s.ipr.toNat]).size)) ∨
      (s.ipr.toNat < s.memSize ∧ why.cause = .dataOutOfRange ∧ s.memSize < why.addr.toNat + 4 ∧
        (((∃ r, decBytes [s.mem.read s.ipr.toNat] = .push r) ∧ why.addr = s.spr - 4) ∨
         ((∃ r, decBytes [s.mem.read s.ipr.toNat] = .pop r) ∧ why.addr = s.spr))))

/-- R243, its liveness clause (the spec's decision D13): while Running the step is taken; the model never refuses. -/
def Obligations.RunningCoreAlwaysSteps : Prop :=
  ∀ s : State, (s.run = .running → ∃ t, step s = .next t) ∧
    ∀ r, step s ≠ .refused r

/-- 41_control.md, corner cases of Invalid (the spec's decision D6): a run of `k` invalid bytes inside memory takes `k`
steps and changes only `ipr`. -/
def Obligations.InvalidBytesTakeOneStepEach : Prop :=
  ∀ (k : Nat) (s : State), s.run = .running → s.ipr.toNat + k ≤ s.memSize →
    (∀ j, j < k → decBytes [s.mem.read (s.ipr.toNat + j)] = .invalid) →
    runFor k s = .next { s with ipr := s.ipr + BitVec.ofNat 32 k }

/-! ## What instructions leave alone -/

/-- R28, whole: only XOR and ADD write `flagr`; each writes all 16 bits whatever they held; after XOR it is 0x0000 or
0x0002, after ADD 0x0000 to 0x0003. -/
def Obligations.OnlyXorAndAddWriteFlagr : Prop :=
  (∀ (i : Instr) (s t : State), exec i s = .next t →
    (i.id ≠ .xor → i.id ≠ .add → t.flagr = s.flagr) ∧
    (i.id = .xor → t.flagr = 0x0000 ∨ t.flagr = 0x0002) ∧
    (i.id = .add → t.flagr = 0x0000 ∨ t.flagr = 0x0001 ∨ t.flagr = 0x0002 ∨ t.flagr = 0x0003) ∧
    (i.id = .xor ∨ i.id = .add → ∀ f, exec i { s with flagr := f } = .next t)) ∧
  ∀ s t : State, step s = .next t → t.flagr ≠ s.flagr →
    decodedId s = some .xor ∨ decodedId s = some .add

/-- 10_state.md section 3 (R24, its width the spec's decision D1): `retr` holds 0 from reset for the whole run; no step
writes it and none reads it; no text spells it. Derived, since the last clause rests on the model's choice that the name
`retr` answers InvalidOperand and no other error (log entry 19). -/
def Obligations.RetrHoldsZero : Prop :=
  (∀ (p : Config.Params) (k : Nat) (t : State), runFor k (State.launch p) = .next t → t.retr = 0) ∧
  (∀ s t : State, step s = .next t → t.retr = s.retr) ∧
  (∀ (s t : State) (v : Word), step s = .next t → step { s with retr := v } = .next { t with retr := v }) ∧
  parseRegister "retr".toList = .error .invalidOperand

/-- 10_state.md section 3 (R25, the spec's decisions D1, D9): `spr` is written only by PUSH and POP, by 4 modulo 2^32, so
its value modulo 4 never changes; no other instruction reads it; its first value is SPR_INIT; no text spells it. Derived,
since the last clause rests on the model's choice that the name `spr` answers InvalidOperand and no other error (log
entry 19). -/
def Obligations.SprMovesByFour : Prop :=
  (∀ p : Config.Params, (State.launch p).spr = p.sprInit) ∧
  (∀ s t : State, step s = .next t →
    ((t.spr = s.spr ∨ (t.spr = s.spr - 4 ∧ decodedId s = some .push) ∨
      (t.spr = s.spr + 4 ∧ decodedId s = some .pop)) ∧
    t.spr.toNat % 4 = s.spr.toNat % 4)) ∧
  (∀ (s t : State) (v : Word), decodedId s ≠ some .push → decodedId s ≠ some .pop → step s = .next t →
    step { s with spr := v } = .next { t with spr := v }) ∧
  parseRegister "spr".toList = .error .invalidOperand

/-- The write columns of the access matrix (10_state.md section 7): what an instruction may not write it leaves alone,
completed or stopped. -/
def Obligations.UnwrittenStateIsUnchanged : Prop :=
  ∀ (i : Instr) (s t : State), exec i s = .next t →
    (∀ q, i.writesGpr ≠ some q → t.getGpr q = s.getGpr q) ∧
    (i.id ≠ .push → i.id ≠ .pop → t.spr = s.spr ∧ t.run = s.run) ∧
    (i.id ≠ .xor → i.id ≠ .add → t.flagr = s.flagr) ∧
    (i.id ≠ .push → ∀ a, t.mem.read a = s.mem.read a) ∧
    (i.id = .push → ∀ a, a < (pushAddr s).toNat ∨ (pushAddr s).toNat + 4 ≤ a → t.mem.read a = s.mem.read a) ∧
    t.retr = s.retr ∧ t.memSize = s.memSize

/-- 10_state.md section 3 (R29, derived by the spec): a program cannot observe the flags. Two cores that differ only in
`flagr` run alike for any number of steps, but for `flagr`. -/
def Obligations.FlagsCannotBeObserved : Prop :=
  ∀ (k : Nat) (s : State) (f : FlagWord),
    match runFor k s, runFor k { s with flagr := f } with
    | .next t, .next t' => ∃ g, t' = { t with flagr := g }
    | .fault a, .fault b => a = b
    | _, _ => False

/-- 41_control.md section 4 (R146, derived by the spec): control flow cannot depend on data. Two running cores that agree
on `ipr`, `spr`, memory and MEM_SIZE step to states that agree on `ipr`, `spr` and `run`, and, unless the instruction
is PUSH, on memory. -/
def Obligations.ControlFlowIgnoresData : Prop :=
  ∀ s s' t t' : State, s'.ipr = s.ipr → s'.spr = s.spr → s'.mem = s.mem → s'.lastAddr = s.lastAddr →
    s.run = .running → s'.run = .running → step s = .next t → step s' = .next t' →
    t'.ipr = t.ipr ∧ t'.spr = t.spr ∧ t'.run = t.run ∧
      (decodedId s ≠ some .push → t'.mem = t.mem)

/-! ## Reset, launch and the invariant -/

/-- R35, whole: every register 0 but `spr`, which is SPR_INIT; memory is MEM_INIT; `run` is Running; the first
instruction fetched is the one whose first byte is `MEM[0]`. -/
def Obligations.LaunchIsTheResetState : Prop :=
  ∀ p : Config.Params, (State.launch p).Launched p ∧
    fetchBytes (State.launch p) (State.launch p).ipr 1 = .ok [p.memInit 0]

/-- R230, its warm reset clause (the spec's decision D16, D17): a warm reset keeps the memory contents of the previous
run and puts everything else in its initial state. -/
def Obligations.WarmResetKeepsMemory : Prop :=
  ∀ (s : State) (v : Word), s.Inv →
    (s.warmReset v).mem = s.mem ∧ (s.warmReset v).lastAddr = s.lastAddr ∧
    (s.warmReset v).Launched ⟨s.lastAddr, s.mem.read, v⟩

/-- 40_decoder_and_sequencer.md section 3 (R122, derived by the spec): a run is determined by MEM_SIZE, SPR_INIT and the
bytes of MEM_INIT below MEM_SIZE. -/
def Obligations.LaunchDependsOnParametersAlone : Prop :=
  ∀ p q : Config.Params, p.lastAddr = q.lastAddr → p.sprInit = q.sprInit →
    (∀ a, a < p.memSize → p.memInit a = q.memInit a) → State.launch p = State.launch q

/-- The model's own choice (log entries 2, 3 and 4): the reset state of the host's interface is the launch with
MEM_SIZE = 2^32, the conventional SPR_INIT for it, and a zero fill. -/
def Obligations.ResetIsALaunch : Prop :=
  State.reset = State.launch ⟨0xffffffff, fun _ => 0, Config.conventionalSpr 0xffffffff⟩ ∧
  State.reset.memSize = 2 ^ 32 ∧ State.reset.spr = 0

/-- The invariant holds at every launch and at the host's reset state. Two parts are the model's choice: that memory is
canonical (log entry 4), and the values of the host's reset state (log entries 2, 3 and 4). -/
def Obligations.LaunchMeetsTheInvariant : Prop :=
  State.reset.Inv ∧ ∀ p : Config.Params, (State.launch p).Inv

/-- Every step keeps the invariant: memory stays canonical and below MEM_SIZE, `retr` stays 0 (R24), bits 15 to 2 of
`flagr` stay 0 (R30), and MEM_SIZE does not change. -/
def Obligations.StepKeepsTheInvariant : Prop :=
  ∀ s t : State, s.Inv → step s = .next t → t.Inv ∧ t.memSize = s.memSize

/-- The host's way to place an instruction (log entry 10): with five bytes free at `ipr`, the very next step runs the
instruction the word decodes to, and nothing but memory at `ipr` and `run` was touched. -/
def Obligations.PlacedWordRunsNext : Prop :=
  ∀ (s : State) (nbits w : Nat) (i : Instr), s.ipr.toNat + 5 ≤ s.memSize → decodeTableWord nbits w = some i →
    step (s.withFetchWord nbits w) = exec i (s.withFetchWord nbits w) ∧
    (s.withFetchWord nbits w) = { s with mem := (s.withFetchWord nbits w).mem, run := .running } ∧
    ∀ a, a < s.ipr.toNat ∨ s.ipr.toNat + 5 ≤ a → (s.withFetchWord nbits w).mem.read a = s.mem.read a

/-! ## Assembly text -/

/-- R196, whole (that 0 renders as `$0x0` is the spec's own reading): registers in decimal, immediates in unpadded
lowercase hexadecimal, the canonical texts of the source, and every sequence of canonical texts assembles back to the
bytes of the instructions it was rendered from. -/
def Obligations.CanonicalTextAssemblesBack : Prop :=
  (∀ r : Reg, registerText r = "%gpr".toList ++ Nat.toDigits 10 r.toNat) ∧
  (∀ v : Word, immediateText v = "$0x".toList ++ Nat.toDigits 16 v.toNat) ∧ immediateText 0 = "$0x0".toList ∧
  disassemble (.sti 2 0xdd0000ff) = "sti %gpr2, $0xdd0000ff;".toList ∧
  disassemble (.mov 4 2) = "mov %gpr4, %gpr2;".toList ∧
  disassemble .nop = "nop;".toList ∧
  disassemble (.jmpabs 0x14) = "jmpabs $0x14;".toList ∧
  disassemble (.push 5) = "push %gpr5;".toList ∧ disassemble (.pop 6) = "pop %gpr6;".toList ∧
  disassemble (.xor 3 3) = "xor %gpr3, %gpr3;".toList ∧ disassemble (.add 0 1) = "add %gpr0, %gpr1;".toList ∧
  ∀ is : List Instr, (∀ i ∈ is, i.wellFormed = true) →
    assemble (is.flatMap disassemble) = .ok (is.flatMap (fun i => (encode i).getD []))

/-- 48_assembly_syntax.md section 5 (R198) and 90_conflicts.md C1: the worked example, the forward label with the
corrected address 6, and a missing label. -/
def Obligations.WorkedExamplesAssemble : Prop :=
  assemble "sti %gpr2, $0xdd0000ff; nop; jmpabs @end; mov %gpr4, %gpr2; @end nop;".toList =
    .ok [0x72, 0xff, 0x00, 0x00, 0xdd, 0x90, 0x91, 0x0d, 0x00, 0x00, 0x00, 0xc0, 0x42, 0x90] ∧
  assemble "jmpabs @end; nop; @end nop;".toList = .ok [0x91, 0x06, 0x00, 0x00, 0x00, 0x90, 0x90] ∧
  assemble "jmpabs @missing;".toList = .error (.unresolvedSymbol "missing".toList)

/-- R192's link pass and the label addresses of R190 for one label: a jump to a label over any canonical statements
takes the byte offset of the labelled statement, modulo 2^32. The wrap of an offset of 2^32 or more is the model's choice
(log entry 21). -/
def Obligations.LabelIsTheByteOffset : Prop :=
  ∀ is : List Instr, (∀ i ∈ is, i.wellFormed = true) →
    let offset := 5 + (is.map Instr.length).sum
    assemble ("jmpabs @l; ".toList ++ is.flatMap disassemble ++ "@l nop;".toList) =
      .ok (0x91 :: leBytes (BitVec.ofNat 32 offset) ++
        is.flatMap (fun i => (encode i).getD []) ++ [0x90])

/-- How far each assembler error of 48_assembly_syntax.md section 4 reaches: a tokenizer error ends the unit, a parser
error its own statement only, an unresolved symbol the unit. The model's choice (log entry 20): text without an encoding
ends the unit, and a statement with a parser error adds no bytes. -/
def Obligations.AssemblerErrorsReachTheirScope : Prop :=
  (∀ t e, assembleStatement t = .error e → e.phase = some .tokenizer ∨ e = .noEncoding) ∧
  (∀ t e rest, assembleStatement t = .ok (.error e, rest) → e.phase = some .parser) ∧
  (∀ (is : List Instr) (bad : Text) (e : AsmError), (∀ i ∈ is, i.wellFormed = true) →
    assembleStatement bad = .error e → e ≠ .expectedEndOfInput →
      assembleUnit (is.flatMap disassemble ++ bad) = .error e) ∧
  (∀ (is js : List Instr) (bad : Text) (e : AsmError), (∀ i ∈ is ++ js, i.wellFormed = true) →
    (∀ rest, assembleStatement (bad ++ rest) = .ok (.error e, rest)) →
      assembleUnit (is.flatMap disassemble ++ (bad ++ js.flatMap disassemble)) =
        .ok ⟨(is ++ js).flatMap (fun i => (encode i).getD []), [e]⟩) ∧
  (∀ is js : List Instr, (∀ i ∈ is ++ js, i.wellFormed = true) →
    assembleUnit (is.flatMap disassemble ++ ("jmpabs @missing;".toList ++ js.flatMap disassemble)) =
      .error (.unresolvedSymbol "missing".toList))
end

