-- ==== Sys2Proof/Laws/Bytes.lean ====
section
/-!
SUPPORT. Laws/Bytes.lean: byte order, nibbles, and what the decoder takes from the first byte.
-/

namespace Sys2Proof

/-! ## Byte order -/

/-- `le32` is the four bytes side by side, the first least significant. -/
theorem le32_eq_append (b0 b1 b2 b3 : Byte) : le32 b0 b1 b2 b3 = b3 ++ b2 ++ b1 ++ b0 := by
  apply BitVec.eq_of_getLsbD_eq
  intro i hi
  simp only [le32, BitVec.getLsbD_or, BitVec.getLsbD_shiftLeft, BitVec.getLsbD_setWidth, BitVec.getLsbD_append]
  have e2 : i - 8 - 8 = i - 16 := by omega
  have e3 : i - 16 - 8 = i - 24 := by omega
  rcases (by omega : i < 8 ∨ (8 ≤ i ∧ i < 16) ∨ (16 ≤ i ∧ i < 24) ∨ 24 ≤ i) with h | h | h | h
  · simp [h, hi, show i < 16 by omega, show i < 24 by omega]
  · simp [h, show ¬ i < 8 by omega, show i < 24 by omega, show i - 8 < 8 by omega, show i - 8 < 32 by omega, hi]
  · simp [h, e2, show ¬ i < 8 by omega, show ¬ i < 16 by omega, show ¬ i - 8 < 8 by omega,
      show i - 16 < 8 by omega, show i - 16 < 32 by omega, show 8 ≤ i - 8 by omega, show 8 ≤ i by omega, hi]
  · simp [e2, e3, show ¬ i < 8 by omega, show ¬ i < 16 by omega, show ¬ i < 24 by omega,
      show ¬ i - 8 < 8 by omega, show ¬ i - 16 < 8 by omega, show i - 24 < 32 by omega, show 8 ≤ i - 8 by omega,
      show 8 ≤ i by omega, show 8 ≤ i - 16 by omega, hi]

/-- A word is put together again from its own bytes. -/
@[simp] theorem le32_byteOf (v : Word) : le32 (byteOf v 0) (byteOf v 1) (byteOf v 2) (byteOf v 3) = v := by
  rw [le32_eq_append]
  apply BitVec.eq_of_getLsbD_eq
  intro i hi
  simp only [byteOf, BitVec.getLsbD_append, BitVec.getLsbD_extractLsb']
  split
  · simp [*]
  · split
    · rw [show 8 * 1 + (i - 8) = i by omega]; simp [*]
    · split
      · rw [show 8 * 2 + (i - 8 - 8) = i by omega]; simp [*]
      · rw [show 8 * 3 + (i - 8 - 8 - 8) = i by omega]; simp [show i - 8 - 8 - 8 < 8 by omega]

/-- The bytes of a word put together from four bytes are those bytes. -/
@[simp] theorem leBytes_le32 (b0 b1 b2 b3 : Byte) : leBytes (le32 b0 b1 b2 b3) = [b0, b1, b2, b3] := by
  have bit (k : Nat) (b : Byte) (h : ∀ j, j < 8 → (b3 ++ b2 ++ b1 ++ b0).getLsbD (8 * k + j) = b.getLsbD j) :
      byteOf (le32 b0 b1 b2 b3) k = b := by
    rw [le32_eq_append]
    apply BitVec.eq_of_getLsbD_eq
    intro j hj
    rw [byteOf, BitVec.getLsbD_extractLsb', h j hj]
    simp [hj]
  simp only [leBytes]
  rw [bit 0 b0, bit 1 b1, bit 2 b2, bit 3 b3]
  all_goals intro j hj; simp only [BitVec.getLsbD_append]
  · rw [if_neg (by omega), if_neg (by omega), if_neg (by omega)]; congr 1; omega
  · rw [if_neg (by omega), if_neg (by omega), if_pos (by omega)]; congr 1; omega
  · rw [if_neg (by omega), if_pos (by omega)]; congr 1; omega
  · rw [if_pos (by omega)]; congr 1; omega

@[simp] theorem length_leBytes (v : Word) : (leBytes v).length = 4 := rfl

/-! ## Nibbles -/

/-- The two register fields of a packed byte (30_encoding.md R86). -/
theorem nibbles_of_packed : ∀ d s : Reg,
    hiNibble (d.setWidth 8 <<< 4 ||| s.setWidth 8) = d ∧ loNibble (d.setWidth 8 <<< 4 ||| s.setWidth 8) = s := by
  decide

/-- A byte is the packing of its two nibbles. -/
theorem packed_of_nibbles : ∀ b : Byte, (hiNibble b).setWidth 8 <<< 4 ||| (loNibble b).setWidth 8 = b := by
  decide

/-! ## The first byte -/

/-- DEC's id is a function of the first byte (30_encoding.md R92). -/
theorem dec_id (b0 b1 b2 b3 b4 : Byte) : (dec b0 b1 b2 b3 b4).id = (dec b0 0 0 0 0).id := by
  unfold dec
  split_ifs <;> rfl

/-- The id of a decoded byte string is that of its first byte alone. -/
theorem decBytes_id (b0 : Byte) (bs : List Byte) : (decBytes (b0 :: bs)).id = (decBytes [b0]).id := by
  simp only [decBytes, List.getD_cons_zero]
  rw [dec_id]; rfl

/-- So is the number of bytes a step consumes. -/
theorem decBytes_size (b0 : Byte) (bs : List Byte) : (decBytes (b0 :: bs)).size = (decBytes [b0]).size :=
  congrArg InstrId.size (decBytes_id b0 bs)

/-- A step consumes 1, 2 or 5 bytes (30_encoding.md R80). -/
theorem Instr.size_cases (i : Instr) : i.size = 1 ∨ i.size = 2 ∨ i.size = 5 := by
  cases i <;> simp [Instr.size, Instr.id, InstrId.size, InstrId.length, Config.invalidStep]

/-- For an instruction, the bytes consumed are its length; Invalid alone differs (90_conflicts.md C5). -/
theorem Instr.size_eq_length (i : Instr) (h : i ≠ .invalid) : i.size = i.length := by
  cases i <;> first | rfl | exact absurd rfl h

/-- An instruction has an encoding exactly when it is well-formed (30_encoding.md R98). -/
theorem encode_isSome (i : Instr) : (encode i).isSome = i.wellFormed := by
  cases i <;> rfl

end Sys2Proof
end

