-- ==== Sys2Proof/Laws/Memory.lean ====
section
/-!
SUPPORT. Laws/Memory.lean: what a byte reads after each memory operation, and that every operation keeps the canonical
form.
-/

namespace Sys2Proof.Machine

/-! ## Reading after one write -/

theorem Memory.read_insert (m : Memory) (a : Nat) (b : Byte) (x : Nat) :
    (m.insert a b).read x = if x = a then b else m.read x := by
  induction m with
  | nil => simp [Memory.insert, Memory.read]
  | cons c m ih =>
    obtain ⟨k, v⟩ := c
    simp only [Memory.insert]
    split
    · simp [Memory.read]
    · split
      · subst_vars; simp only [Memory.read]; split <;> simp_all
      · simp only [Memory.read, ih]
        by_cases hx : x = k
        · rw [if_pos hx, if_pos hx, if_neg (by omega)]
        · rw [if_neg hx, if_neg hx]

theorem Memory.read_erase (m : Memory) (a x : Nat) :
    (m.erase a).read x = if x = a then Memory.unlisted else m.read x := by
  induction m with
  | nil => simp [Memory.erase, Memory.read]
  | cons c m ih =>
    obtain ⟨k, v⟩ := c
    simp only [Memory.erase] at ih ⊢
    by_cases h : k = a
    · subst h
      simp only [List.filter_cons, ne_eq, not_true_eq_false, decide_false, Bool.false_eq_true, ↓reduceIte, ih,
        Memory.read]
      split <;> simp_all
    · simp only [List.filter_cons, ne_eq, h, not_false_eq_true, decide_true, ↓reduceIte, Memory.read, ih]
      split <;> simp_all

/-- A write gives its address the byte and leaves every other address alone (20_memory.md R63). -/
@[simp] theorem Memory.read_write (m : Memory) (a : Nat) (b : Byte) (x : Nat) :
    (m.write a b).read x = if x = a then b else m.read x := by
  unfold Memory.write
  split
  · next h => rw [Memory.read_erase, h]
  · exact Memory.read_insert m a b x

/-! ## Several bytes -/

@[simp] theorem Memory.length_readBytes (m : Memory) (a n : Nat) : (m.readBytes a n).length = n := by
  induction n generalizing a with
  | zero => rfl
  | succ n ih => simp [Memory.readBytes, ih]

/-- The `k`-th byte read is the one at `a + k`. -/
theorem Memory.getD_readBytes (m : Memory) (a n k : Nat) (h : k < n) (d : Byte) :
    (m.readBytes a n).getD k d = m.read (a + k) := by
  induction n generalizing a k with
  | zero => omega
  | succ n ih =>
    cases k with
    | zero => simp [Memory.readBytes]
    | succ k =>
      rw [Memory.readBytes, List.getD_cons_succ, ih (a + 1) k (by omega)]
      congr 1; omega

/-- Reading fewer bytes reads the first of them. -/
theorem Memory.take_readBytes (m : Memory) (a n k : Nat) (h : k ≤ n) :
    (m.readBytes a n).take k = m.readBytes a k := by
  induction n generalizing a k with
  | zero => obtain rfl : k = 0 := by omega
            rfl
  | succ n ih =>
    cases k with
    | zero => rfl
    | succ k => simp [Memory.readBytes, ih (a + 1) k (by omega)]

/-- Memories that read alike on a range give the same bytes there. -/
theorem Memory.readBytes_congr (m m' : Memory) (a n : Nat) (h : ∀ x, a ≤ x → x < a + n → m'.read x = m.read x) :
    m'.readBytes a n = m.readBytes a n := by
  induction n generalizing a with
  | zero => rfl
  | succ n ih =>
    simp only [Memory.readBytes]
    rw [h a (by omega) (by omega), ih (a + 1) (fun x h1 h2 => h x (by omega) (by omega))]

/-- What every address reads after a write of several bytes (20_memory.md R59). -/
theorem Memory.read_writeBytes (m : Memory) (a : Nat) (bs : List Byte) (x : Nat) :
    (m.writeBytes a bs).read x = if a ≤ x ∧ x < a + bs.length then bs.getD (x - a) 0 else m.read x := by
  induction bs generalizing m a with
  | nil => rw [if_neg (by simp only [List.length_nil]; omega)]; rfl
  | cons b bs ih =>
    rw [Memory.writeBytes, ih, Memory.read_write]
    simp only [List.length_cons]
    by_cases h1 : x = a
    · subst h1
      rw [if_neg (by omega), if_pos rfl, if_pos (by omega)]; simp
    · by_cases h2 : a + 1 ≤ x ∧ x < a + 1 + bs.length
      · rw [if_pos h2, if_pos (by omega), show x - a = (x - (a + 1)) + 1 by omega, List.getD_cons_succ]
      · rw [if_neg h2, if_neg h1, if_neg (by omega)]

/-- Reading back what was written. -/
theorem Memory.readBytes_writeBytes (m : Memory) (a : Nat) (bs : List Byte) :
    (m.writeBytes a bs).readBytes a bs.length = bs := by
  apply List.ext_getElem (by simp)
  intro k h1 h2
  have h3 := Memory.getD_readBytes (m.writeBytes a bs) a bs.length k h2 0
  rw [Memory.read_writeBytes, if_pos (by omega), Nat.add_sub_cancel_left] at h3
  rwa [List.getD_eq_getElem _ _ h1, List.getD_eq_getElem _ _ h2] at h3

/-! ## The canonical form -/

theorem Memory.mem_insert (m : Memory) (a : Nat) (b : Byte) (c : Host.Cell) (h : c ∈ m.insert a b) :
    c = (a, b) ∨ c ∈ m := by
  induction m with
  | nil => simpa [Memory.insert] using h
  | cons d m ih =>
    obtain ⟨k, v⟩ := d
    simp only [Memory.insert] at h
    split at h
    · simpa using h
    · split at h
      · rcases List.mem_cons.mp h with h | h
        · exact .inl h
        · exact .inr (List.mem_cons_of_mem _ h)
      · rcases List.mem_cons.mp h with h | h
        · exact .inr (h ▸ List.mem_cons_self)
        · exact (ih h).imp_right (List.mem_cons_of_mem _)

theorem Memory.insert_sorted (m : Memory) (a : Nat) (b : Byte) (h : m.Pairwise (fun c d => c.1 < d.1)) :
    (m.insert a b).Pairwise (fun c d => c.1 < d.1) := by
  induction m with
  | nil => simp [Memory.insert]
  | cons d m ih =>
    obtain ⟨k, v⟩ := d
    obtain ⟨hk, hm⟩ := List.pairwise_cons.mp h
    simp only [Memory.insert]
    split
    · next hlt =>
      refine List.pairwise_cons.mpr ⟨fun c hc => ?_, h⟩
      rcases List.mem_cons.mp hc with rfl | hc
      · exact hlt
      · exact Nat.lt_trans hlt (hk c hc)
    · split
      · next heq => subst heq; exact List.pairwise_cons.mpr ⟨hk, hm⟩
      · refine List.pairwise_cons.mpr ⟨fun c hc => ?_, ih hm⟩
        rcases Memory.mem_insert m a b c hc with rfl | hc
        · show k < a; omega
        · exact hk c hc

theorem Memory.mem_write (m : Memory) (a : Nat) (b : Byte) (c : Host.Cell) (h : c ∈ m.write a b) :
    c = (a, b) ∨ c ∈ m := by
  unfold Memory.write at h
  split at h
  · exact .inr (List.mem_filter.mp h).1
  · exact Memory.mem_insert m a b c h

/-- A write keeps the canonical form. -/
theorem Memory.wf_write (m : Memory) (a : Nat) (b : Byte) (h : m.wf) : (m.write a b).wf := by
  refine ⟨?_, fun c hc => ?_⟩
  · unfold Memory.write
    split
    · exact h.1.filter _
    · exact Memory.insert_sorted m a b h.1
  · unfold Memory.write at hc
    split at hc
    · exact h.2 c (List.mem_filter.mp hc).1
    · next hb =>
      rcases Memory.mem_insert m a b c hc with rfl | hc
      · exact hb
      · exact h.2 c hc

/-- A write of several bytes keeps the canonical form. -/
theorem Memory.wf_writeBytes (m : Memory) (a : Nat) (bs : List Byte) (h : m.wf) : (m.writeBytes a bs).wf := by
  induction bs generalizing m a with
  | nil => exact h
  | cons b bs ih => exact ih _ _ (Memory.wf_write m a b h)

/-- A write of several bytes below a bound lists no address at or above it. -/
theorem Memory.writeBytes_below (m : Memory) (a n : Nat) (bs : List Byte) (h : ∀ c ∈ m, c.1 < n)
    (hb : a + bs.length ≤ n) : ∀ c ∈ m.writeBytes a bs, c.1 < n := by
  induction bs generalizing m a with
  | nil => exact h
  | cons b bs ih =>
    simp only [List.length_cons] at hb
    refine ih _ _ (fun c hc => ?_) (by omega)
    rcases Memory.mem_write m a b c hc with rfl | hc
    · show a < n; omega
    · exact h c hc

/-! ## A memory from a function -/

theorem Memory.ofFn_below (f : Nat → Byte) (n : Nat) : ∀ c ∈ Memory.ofFn f n, c.1 < n := by
  induction n with
  | zero => simp [Memory.ofFn]
  | succ n ih =>
    intro c hc
    simp only [Memory.ofFn] at hc
    split at hc
    · have := ih c hc; omega
    · rcases List.mem_append.mp hc with hc | hc
      · have := ih c hc; omega
      · simp only [List.mem_singleton] at hc; subst hc; show n < n + 1; omega

/-- A memory from a function is in canonical form. -/
theorem Memory.wf_ofFn (f : Nat → Byte) (n : Nat) : (Memory.ofFn f n).wf := by
  induction n with
  | zero => exact ⟨List.Pairwise.nil, by simp [Memory.ofFn]⟩
  | succ n ih =>
    simp only [Memory.ofFn]
    split
    · exact ih
    · next h =>
      refine ⟨List.pairwise_append.mpr ⟨ih.1, List.pairwise_singleton .., fun c hc d hd => ?_⟩, fun c hc => ?_⟩
      · simp only [List.mem_singleton] at hd; subst hd; exact Memory.ofFn_below f n c hc
      · rcases List.mem_append.mp hc with hc | hc
        · exact ih.2 c hc
        · simp only [List.mem_singleton] at hc; subst hc; exact h

theorem Memory.read_append (m m' : Memory) (x : Nat) (h : ∀ c ∈ m, c.1 ≠ x) :
    Memory.read (m ++ m') x = Memory.read m' x := by
  induction m with
  | nil => rfl
  | cons c m ih =>
    obtain ⟨k, v⟩ := c
    have hk : x ≠ k := fun e => h (k, v) List.mem_cons_self e.symm
    simp only [List.cons_append, Memory.read, if_neg hk]
    exact ih (fun c hc => h c (List.mem_cons_of_mem _ hc))

theorem Memory.read_append_of_unlisted (m m' : Memory) (x : Nat) (h : ∀ c ∈ m', c.1 ≠ x) :
    Memory.read (m ++ m') x = Memory.read m x := by
  induction m with
  | nil =>
    have := Memory.read_append m' [] x h
    simpa [Memory.read] using this
  | cons c m ih =>
    obtain ⟨k, v⟩ := c
    simp only [List.cons_append, Memory.read, ih]

/-- A memory from a function reads as the function below the bound, and as unlisted above it. -/
theorem Memory.read_ofFn (f : Nat → Byte) (n x : Nat) :
    (Memory.ofFn f n).read x = if x < n then f x else Memory.unlisted := by
  induction n with
  | zero => simp [Memory.ofFn, Memory.read]
  | succ n ih =>
    by_cases hx : x = n
    · subst hx
      rw [if_pos (by omega)]
      simp only [Memory.ofFn]
      split
      · next h => rw [ih, if_neg (by omega), h]
      · rw [Memory.read_append _ _ _ (fun c hc => by have := Memory.ofFn_below f x c hc; omega)]
        simp [Memory.read]
    · have : (Memory.ofFn f (n + 1)).read x = (Memory.ofFn f n).read x := by
        simp only [Memory.ofFn]
        split
        · rfl
        · exact Memory.read_append_of_unlisted _ _ _ (fun c hc => by
            simp only [List.mem_singleton] at hc; subst hc; exact fun e => hx e.symm)
      rw [this, ih]
      by_cases h : x < n
      · rw [if_pos h, if_pos (by omega)]
      · rw [if_neg h, if_neg (by omega)]

/-- Nothing is listed where a memory reads nothing but the unlisted byte: what an entry of a canonical memory says. -/
theorem Memory.read_of_mem (m : Memory) (h : m.Pairwise (fun c d => c.1 < d.1)) (c : Host.Cell) (hc : c ∈ m) :
    m.read c.1 = c.2 := by
  induction m with
  | nil => simp at hc
  | cons d m ih =>
    obtain ⟨k, v⟩ := d
    obtain ⟨hk, hm⟩ := List.pairwise_cons.mp h
    rcases List.mem_cons.mp hc with rfl | hc
    · simp [Memory.read]
    · have := hk c hc
      simp only [Memory.read, if_neg (show c.1 ≠ k by omega)]
      exact ih hm hc

/-- An address no entry lists reads as unlisted. -/
theorem Memory.read_of_not_listed (m : Memory) (x : Nat) (h : ∀ c ∈ m, c.1 ≠ x) : m.read x = Memory.unlisted := by
  have := Memory.read_append m [] x h
  simpa [Memory.read] using this

end Sys2Proof.Machine
end

