-- ==== Sys2Proof/Laws/State.lean ====
section
/-!
SUPPORT. Laws/State.lean: one lemma per field per update of the state, the register file's read after write, and the
fields of a launched state.
-/

namespace Sys2Proof.Machine

/-! ## `setGpr` -/

@[simp] theorem State.setGpr_retr (s : State) (r : Reg) (v : Word) : (s.setGpr r v).retr = s.retr := rfl
@[simp] theorem State.setGpr_spr (s : State) (r : Reg) (v : Word) : (s.setGpr r v).spr = s.spr := rfl
@[simp] theorem State.setGpr_ipr (s : State) (r : Reg) (v : Word) : (s.setGpr r v).ipr = s.ipr := rfl
@[simp] theorem State.setGpr_flagr (s : State) (r : Reg) (v : Word) : (s.setGpr r v).flagr = s.flagr := rfl
@[simp] theorem State.setGpr_mem (s : State) (r : Reg) (v : Word) : (s.setGpr r v).mem = s.mem := rfl
@[simp] theorem State.setGpr_run (s : State) (r : Reg) (v : Word) : (s.setGpr r v).run = s.run := rfl
@[simp] theorem State.setGpr_lastAddr (s : State) (r : Reg) (v : Word) : (s.setGpr r v).lastAddr = s.lastAddr := rfl
@[simp] theorem State.setGpr_memSize (s : State) (r : Reg) (v : Word) : (s.setGpr r v).memSize = s.memSize := rfl

/-! ## `setSpr` -/

@[simp] theorem State.setSpr_gpr (s : State) (v : Word) : (s.setSpr v).gpr = s.gpr := rfl
@[simp] theorem State.setSpr_retr (s : State) (v : Word) : (s.setSpr v).retr = s.retr := rfl
@[simp] theorem State.setSpr_spr (s : State) (v : Word) : (s.setSpr v).spr = v := rfl
@[simp] theorem State.setSpr_ipr (s : State) (v : Word) : (s.setSpr v).ipr = s.ipr := rfl
@[simp] theorem State.setSpr_flagr (s : State) (v : Word) : (s.setSpr v).flagr = s.flagr := rfl
@[simp] theorem State.setSpr_mem (s : State) (v : Word) : (s.setSpr v).mem = s.mem := rfl
@[simp] theorem State.setSpr_run (s : State) (v : Word) : (s.setSpr v).run = s.run := rfl
@[simp] theorem State.setSpr_lastAddr (s : State) (v : Word) : (s.setSpr v).lastAddr = s.lastAddr := rfl
@[simp] theorem State.setSpr_memSize (s : State) (v : Word) : (s.setSpr v).memSize = s.memSize := rfl
@[simp] theorem State.setSpr_getGpr (s : State) (v : Word) (q : Reg) : (s.setSpr v).getGpr q = s.getGpr q := rfl

/-! ## `setIpr` -/

@[simp] theorem State.setIpr_gpr (s : State) (v : Word) : (s.setIpr v).gpr = s.gpr := rfl
@[simp] theorem State.setIpr_retr (s : State) (v : Word) : (s.setIpr v).retr = s.retr := rfl
@[simp] theorem State.setIpr_spr (s : State) (v : Word) : (s.setIpr v).spr = s.spr := rfl
@[simp] theorem State.setIpr_ipr (s : State) (v : Word) : (s.setIpr v).ipr = v := rfl
@[simp] theorem State.setIpr_flagr (s : State) (v : Word) : (s.setIpr v).flagr = s.flagr := rfl
@[simp] theorem State.setIpr_mem (s : State) (v : Word) : (s.setIpr v).mem = s.mem := rfl
@[simp] theorem State.setIpr_run (s : State) (v : Word) : (s.setIpr v).run = s.run := rfl
@[simp] theorem State.setIpr_lastAddr (s : State) (v : Word) : (s.setIpr v).lastAddr = s.lastAddr := rfl
@[simp] theorem State.setIpr_memSize (s : State) (v : Word) : (s.setIpr v).memSize = s.memSize := rfl
@[simp] theorem State.setIpr_getGpr (s : State) (v : Word) (q : Reg) : (s.setIpr v).getGpr q = s.getGpr q := rfl

/-! ## `setFlagr` -/

@[simp] theorem State.setFlagr_gpr (s : State) (v : FlagWord) : (s.setFlagr v).gpr = s.gpr := rfl
@[simp] theorem State.setFlagr_retr (s : State) (v : FlagWord) : (s.setFlagr v).retr = s.retr := rfl
@[simp] theorem State.setFlagr_spr (s : State) (v : FlagWord) : (s.setFlagr v).spr = s.spr := rfl
@[simp] theorem State.setFlagr_ipr (s : State) (v : FlagWord) : (s.setFlagr v).ipr = s.ipr := rfl
@[simp] theorem State.setFlagr_flagr (s : State) (v : FlagWord) : (s.setFlagr v).flagr = v := rfl
@[simp] theorem State.setFlagr_mem (s : State) (v : FlagWord) : (s.setFlagr v).mem = s.mem := rfl
@[simp] theorem State.setFlagr_run (s : State) (v : FlagWord) : (s.setFlagr v).run = s.run := rfl
@[simp] theorem State.setFlagr_lastAddr (s : State) (v : FlagWord) : (s.setFlagr v).lastAddr = s.lastAddr := rfl
@[simp] theorem State.setFlagr_memSize (s : State) (v : FlagWord) : (s.setFlagr v).memSize = s.memSize := rfl
@[simp] theorem State.setFlagr_getGpr (s : State) (v : FlagWord) (q : Reg) : (s.setFlagr v).getGpr q = s.getGpr q := rfl

/-! ## `setMem` -/

@[simp] theorem State.setMem_gpr (s : State) (m : Memory) : (s.setMem m).gpr = s.gpr := rfl
@[simp] theorem State.setMem_retr (s : State) (m : Memory) : (s.setMem m).retr = s.retr := rfl
@[simp] theorem State.setMem_spr (s : State) (m : Memory) : (s.setMem m).spr = s.spr := rfl
@[simp] theorem State.setMem_ipr (s : State) (m : Memory) : (s.setMem m).ipr = s.ipr := rfl
@[simp] theorem State.setMem_flagr (s : State) (m : Memory) : (s.setMem m).flagr = s.flagr := rfl
@[simp] theorem State.setMem_mem (s : State) (m : Memory) : (s.setMem m).mem = m := rfl
@[simp] theorem State.setMem_run (s : State) (m : Memory) : (s.setMem m).run = s.run := rfl
@[simp] theorem State.setMem_lastAddr (s : State) (m : Memory) : (s.setMem m).lastAddr = s.lastAddr := rfl
@[simp] theorem State.setMem_memSize (s : State) (m : Memory) : (s.setMem m).memSize = s.memSize := rfl
@[simp] theorem State.setMem_getGpr (s : State) (m : Memory) (q : Reg) : (s.setMem m).getGpr q = s.getGpr q := rfl

/-! ## `setRun` -/

@[simp] theorem State.setRun_gpr (s : State) (r : RunState) : (s.setRun r).gpr = s.gpr := rfl
@[simp] theorem State.setRun_retr (s : State) (r : RunState) : (s.setRun r).retr = s.retr := rfl
@[simp] theorem State.setRun_spr (s : State) (r : RunState) : (s.setRun r).spr = s.spr := rfl
@[simp] theorem State.setRun_ipr (s : State) (r : RunState) : (s.setRun r).ipr = s.ipr := rfl
@[simp] theorem State.setRun_flagr (s : State) (r : RunState) : (s.setRun r).flagr = s.flagr := rfl
@[simp] theorem State.setRun_mem (s : State) (r : RunState) : (s.setRun r).mem = s.mem := rfl
@[simp] theorem State.setRun_run (s : State) (r : RunState) : (s.setRun r).run = r := rfl
@[simp] theorem State.setRun_lastAddr (s : State) (r : RunState) : (s.setRun r).lastAddr = s.lastAddr := rfl
@[simp] theorem State.setRun_memSize (s : State) (r : RunState) : (s.setRun r).memSize = s.memSize := rfl
@[simp] theorem State.setRun_getGpr (s : State) (r : RunState) (q : Reg) : (s.setRun r).getGpr q = s.getGpr q := rfl

/-! ## `raise` -/

@[simp] theorem State.raise_gpr (s : State) (why : Stop) : (s.raise why).gpr = s.gpr := rfl
@[simp] theorem State.raise_retr (s : State) (why : Stop) : (s.raise why).retr = s.retr := rfl
@[simp] theorem State.raise_spr (s : State) (why : Stop) : (s.raise why).spr = s.spr := rfl
@[simp] theorem State.raise_ipr (s : State) (why : Stop) : (s.raise why).ipr = s.ipr := rfl
@[simp] theorem State.raise_flagr (s : State) (why : Stop) : (s.raise why).flagr = s.flagr := rfl
@[simp] theorem State.raise_mem (s : State) (why : Stop) : (s.raise why).mem = s.mem := rfl
@[simp] theorem State.raise_run (s : State) (why : Stop) : (s.raise why).run = .stopped why := rfl
@[simp] theorem State.raise_lastAddr (s : State) (why : Stop) : (s.raise why).lastAddr = s.lastAddr := rfl
@[simp] theorem State.raise_memSize (s : State) (why : Stop) : (s.raise why).memSize = s.memSize := rfl
@[simp] theorem State.raise_getGpr (s : State) (why : Stop) (q : Reg) : (s.raise why).getGpr q = s.getGpr q := rfl

/-! ## `advance` -/

@[simp] theorem State.advance_gpr (s : State) (n : Nat) : (s.advance n).gpr = s.gpr := rfl
@[simp] theorem State.advance_retr (s : State) (n : Nat) : (s.advance n).retr = s.retr := rfl
@[simp] theorem State.advance_spr (s : State) (n : Nat) : (s.advance n).spr = s.spr := rfl
@[simp] theorem State.advance_ipr (s : State) (n : Nat) : (s.advance n).ipr = s.ipr + BitVec.ofNat 32 n := rfl
@[simp] theorem State.advance_flagr (s : State) (n : Nat) : (s.advance n).flagr = s.flagr := rfl
@[simp] theorem State.advance_mem (s : State) (n : Nat) : (s.advance n).mem = s.mem := rfl
@[simp] theorem State.advance_run (s : State) (n : Nat) : (s.advance n).run = s.run := rfl
@[simp] theorem State.advance_lastAddr (s : State) (n : Nat) : (s.advance n).lastAddr = s.lastAddr := rfl
@[simp] theorem State.advance_memSize (s : State) (n : Nat) : (s.advance n).memSize = s.memSize := rfl
@[simp] theorem State.advance_getGpr (s : State) (n : Nat) (q : Reg) : (s.advance n).getGpr q = s.getGpr q := rfl

/-! ## The register file -/

/-- A read after a write: the written register reads the value, every other its old value (10_state.md R22). -/
@[simp] theorem State.getGpr_setGpr (s : State) (r : Reg) (v : Word) (q : Reg) :
    (s.setGpr r v).getGpr q = if q = r then v else s.getGpr q := by
  by_cases h : q = r
  · subst h; simp [State.getGpr, State.setGpr]
  · have : r.toNat ≠ q.toNat := fun e => h (BitVec.eq_of_toNat_eq e.symm)
    simp [State.getGpr, State.setGpr, h, Vector.getElem_set_ne, this]

/-- Writing back what a register holds changes nothing. -/
theorem State.setGpr_getGpr (s : State) (r : Reg) : s.setGpr r (s.getGpr r) = s := by
  cases s
  simp [State.getGpr, State.setGpr]

/-- Two register files that read alike are the same. -/
theorem State.gpr_ext (s t : State) (h : ∀ q, t.getGpr q = s.getGpr q) : t.gpr = s.gpr := by
  apply Vector.ext
  intro i hi
  have := h (BitVec.ofNat 4 i)
  simpa [State.getGpr, Nat.mod_eq_of_lt (show i < 16 from hi)] using this

/-! ## The ALU's write -/

@[simp] theorem State.writeAlu_retr (s : State) (d : Reg) (o : AluOut) : (s.writeAlu d o).retr = s.retr := rfl
@[simp] theorem State.writeAlu_spr (s : State) (d : Reg) (o : AluOut) : (s.writeAlu d o).spr = s.spr := rfl
@[simp] theorem State.writeAlu_ipr (s : State) (d : Reg) (o : AluOut) : (s.writeAlu d o).ipr = s.ipr := rfl
@[simp] theorem State.writeAlu_flagr (s : State) (d : Reg) (o : AluOut) : (s.writeAlu d o).flagr = flagsOf o := rfl
@[simp] theorem State.writeAlu_mem (s : State) (d : Reg) (o : AluOut) : (s.writeAlu d o).mem = s.mem := rfl
@[simp] theorem State.writeAlu_run (s : State) (d : Reg) (o : AluOut) : (s.writeAlu d o).run = s.run := rfl
@[simp] theorem State.writeAlu_lastAddr (s : State) (d : Reg) (o : AluOut) : (s.writeAlu d o).lastAddr = s.lastAddr := rfl
@[simp] theorem State.writeAlu_memSize (s : State) (d : Reg) (o : AluOut) : (s.writeAlu d o).memSize = s.memSize := rfl
@[simp] theorem State.writeAlu_getGpr (s : State) (d : Reg) (o : AluOut) (q : Reg) :
    (s.writeAlu d o).getGpr q = if q = d then o.result else s.getGpr q := by
  simp [State.writeAlu]

/-! ## Reset and launch -/

@[simp] theorem State.launch_retr (p : Config.Params) : (State.launch p).retr = 0 := rfl
@[simp] theorem State.launch_spr (p : Config.Params) : (State.launch p).spr = p.sprInit := rfl
@[simp] theorem State.launch_ipr (p : Config.Params) : (State.launch p).ipr = 0 := rfl
@[simp] theorem State.launch_flagr (p : Config.Params) : (State.launch p).flagr = 0 := rfl
@[simp] theorem State.launch_mem (p : Config.Params) : (State.launch p).mem = Memory.ofFn p.memInit p.memSize := rfl
@[simp] theorem State.launch_run (p : Config.Params) : (State.launch p).run = .running := rfl
@[simp] theorem State.launch_lastAddr (p : Config.Params) : (State.launch p).lastAddr = p.lastAddr := rfl
@[simp] theorem State.launch_memSize (p : Config.Params) : (State.launch p).memSize = p.memSize := rfl
@[simp] theorem State.launch_getGpr (p : Config.Params) (q : Reg) : (State.launch p).getGpr q = 0 := by
  simp [State.getGpr, State.launch]
@[simp] theorem State.reset_getGpr (q : Reg) : State.reset.getGpr q = 0 := by
  simp [State.getGpr, State.reset]

end Sys2Proof.Machine
end

