-- ==== Sys2Proof/Laws/Ops.lean ====
section
/-!
SUPPORT. Laws/Ops.lean: one lemma per shared operation that says everything it can do, the closed form of each
instruction's meaning, and the forms of a step.
-/

namespace Sys2Proof.Machine

/-! ## The load/store interface -/

theorem memSize_pos (s : State) : 0 < s.memSize := Nat.succ_pos _

theorem memSize_le (s : State) : s.memSize ≤ 2 ^ 32 := s.lastAddr.isLt

/-- Everything a fetch of an instruction can do (40_decoder_and_sequencer.md R118): it is one check that the whole
instruction, as the first byte sizes it, lies inside memory. -/
theorem fetchInstr_eq (s : State) :
    fetchInstr s =
      if s.ipr.toNat + (decBytes [s.mem.read s.ipr.toNat]).size ≤ s.memSize then
        .ok (decBytes (s.mem.readBytes s.ipr.toNat (decBytes [s.mem.read s.ipr.toNat]).size))
      else .error ⟨.fetchOutOfRange, s.ipr⟩ := by
  have hsize := Instr.size_cases (decBytes [s.mem.read s.ipr.toNat])
  have hone : s.mem.readBytes s.ipr.toNat 1 = [s.mem.read s.ipr.toNat] := rfl
  unfold fetchInstr fetchBytes State.inRange
  by_cases h1 : s.ipr.toNat + 1 ≤ s.memSize
  · rw [if_pos h1, hone]
    dsimp only
    by_cases h2 : s.ipr.toNat + (decBytes [s.mem.read s.ipr.toNat]).size ≤ s.memSize
    · rw [if_pos h2, if_pos h2]
    · rw [if_neg h2, if_neg h2]
  · rw [if_neg h1, if_neg (by omega)]

/-- The bytes of an instruction at an address start with the byte there. -/
theorem readBytes_size (m : Memory) (a : Nat) :
    ∃ bs, m.readBytes a (decBytes [m.read a]).size = m.read a :: bs := by
  rcases Instr.size_cases (decBytes [m.read a]) with h | h | h <;> rw [h] <;> exact ⟨_, rfl⟩

/-- What is fetched has the id the first byte selects. -/
theorem id_of_fetchInstr (s : State) (i : Instr) (h : fetchInstr s = .ok i) :
    i.id = (decBytes [s.mem.read s.ipr.toNat]).id := by
  rw [fetchInstr_eq] at h
  split at h
  · obtain ⟨bs, hbs⟩ := readBytes_size s.mem s.ipr.toNat
    injection h with h
    rw [← h, hbs, decBytes_id]
  · cases h

/-- A fetch that fails is out of range and records `ipr` (60_exceptions.md R211). -/
theorem fetchInstr_error (s : State) (why : Stop) (h : fetchInstr s = .error why) :
    why = ⟨.fetchOutOfRange, s.ipr⟩ ∧ s.memSize < s.ipr.toNat + (decBytes [s.mem.read s.ipr.toNat]).size := by
  rw [fetchInstr_eq] at h
  split at h
  · cases h
  · injection h with h; exact ⟨h.symm, by omega⟩

/-- The word POP loads at an address (20_memory.md R54). -/
def loadWord (m : Memory) (a : Nat) : Word := le32 (m.read a) (m.read (a + 1)) (m.read (a + 2)) (m.read (a + 3))

theorem pushWord_eq (s : State) (v : Word) :
    pushWord s v =
      if (pushAddr s).toNat + 4 ≤ s.memSize then
        .ok ((s.setMem (s.mem.writeBytes (pushAddr s).toNat (leBytes v))).setSpr (pushAddr s))
      else .error ⟨.dataOutOfRange, pushAddr s⟩ := by
  unfold pushWord memWrite State.inRange
  rw [length_leBytes]
  by_cases h : (pushAddr s).toNat + 4 ≤ s.memSize
  · rw [if_pos h, if_pos h]
  · rw [if_neg h, if_neg h]

theorem popWord_eq (s : State) :
    popWord s =
      if s.spr.toNat + 4 ≤ s.memSize then .ok (loadWord s.mem s.spr.toNat, s.setSpr (s.spr + 4))
      else .error ⟨.dataOutOfRange, s.spr⟩ := by
  unfold popWord memRead State.inRange popAddr
  by_cases h : s.spr.toNat + 4 ≤ s.memSize
  · rw [if_pos h, if_pos h]; rfl
  · rw [if_neg h, if_neg h]

/-! ## The meanings -/

/-- Everything PUSH can do. -/
theorem exec_push (r : Reg) (s : State) :
    exec (.push r) s =
      if (pushAddr s).toNat + 4 ≤ s.memSize then
        .next (((s.setMem (s.mem.writeBytes (pushAddr s).toNat (leBytes (s.getGpr r)))).setSpr
          (pushAddr s)).advance 1)
      else .next (s.raise ⟨.dataOutOfRange, pushAddr s⟩) := by
  show execPush r s = _
  unfold execPush
  rw [pushWord_eq]
  by_cases h : (pushAddr s).toNat + 4 ≤ s.memSize
  · rw [if_pos h, if_pos h]
  · rw [if_neg h, if_neg h]

/-- Everything POP can do. -/
theorem exec_pop (r : Reg) (s : State) :
    exec (.pop r) s =
      if s.spr.toNat + 4 ≤ s.memSize then
        .next (((s.setSpr (s.spr + 4)).setGpr r (loadWord s.mem s.spr.toNat)).advance 1)
      else .next (s.raise ⟨.dataOutOfRange, s.spr⟩) := by
  show execPop r s = _
  unfold execPop
  rw [popWord_eq]
  by_cases h : s.spr.toNat + 4 ≤ s.memSize
  · rw [if_pos h, if_pos h]
  · rw [if_neg h, if_neg h]

@[simp] theorem exec_nop (s : State) : exec .nop s = .next (s.advance 1) := rfl
@[simp] theorem exec_invalid (s : State) : exec .invalid s = .next (s.advance 1) := rfl
@[simp] theorem exec_jmpabs (a : Word) (s : State) : exec (.jmpabs a) s = .next (s.setIpr a) := rfl
@[simp] theorem exec_sti (r : Reg) (v : Word) (s : State) :
    exec (.sti r v) s = .next ((s.setGpr r v).advance 5) := rfl
@[simp] theorem exec_mov (d r : Reg) (s : State) :
    exec (.mov d r) s = .next ((s.setGpr d (s.getGpr r)).advance 2) := rfl
@[simp] theorem exec_xor (d r : Reg) (s : State) :
    exec (.xor d r) s = .next ((s.writeAlu d (alu .xor (s.getGpr d) (s.getGpr r))).advance 2) := rfl
@[simp] theorem exec_add (d r : Reg) (s : State) :
    exec (.add d r) s = .next ((s.writeAlu d (alu .add (s.getGpr d) (s.getGpr r))).advance 2) := rfl

/-! ## The ALU -/

@[simp] theorem alu_xor_result (a b : Word) : (alu .xor a b).result = a ^^^ b := rfl

/-- The 33-bit sum narrowed to 32 bits is the sum modulo 2^32 (44_alu.md R172). -/
@[simp] theorem alu_add_result (a b : Word) : (alu .add a b).result = a + b := by
  apply BitVec.eq_of_toNat_eq
  simp only [alu, aluResult, sum33, BitVec.toNat_setWidth, BitVec.toNat_add]
  omega

/-- Carry is set exactly when the integer sum does not fit in 32 bits (44_alu.md R172). -/
theorem alu_add_carry (a b : Word) : (alu .add a b).carry = decide (2 ^ 32 ≤ a.toNat + b.toNat) := by
  have ha := a.isLt
  have hb := b.isLt
  show (sum33 a b).getLsbD 32 = _
  have hs : (sum33 a b).toNat = a.toNat + b.toNat := by
    simp only [sum33, BitVec.toNat_add, BitVec.toNat_setWidth]; omega
  rw [BitVec.getLsbD, hs, Nat.testBit_eq_decide_div_mod_eq]
  congr 1
  apply propext
  omega

@[simp] theorem alu_zero (f : AluFn) (a b : Word) : (alu f a b).zero = ((alu f a b).result == 0) := rfl

@[simp] theorem alu_xor_carry (a b : Word) : (alu .xor a b).carry = false := rfl

/-- The two bits of what is written to `flagr`, and no others (10_state.md R27, R30). -/
theorem flagsOf_bits (o : AluOut) :
    (flagsOf o).getLsbD 0 = o.carry ∧ (flagsOf o).getLsbD 1 = o.zero ∧ flagsOf o &&& 0xfffc = 0 := by
  obtain ⟨_, c, z⟩ := o
  cases c <;> cases z <;> simp [flagsOf, carryMask, zeroMask]

/-! ## The step -/

theorem step_stopped (s : State) (why : Stop) (h : s.run = .stopped why) : step s = .fault (.stopped why) := by
  simp [step, h]

theorem step_running (s : State) (h : s.run = .running) :
    step s = match fetchInstr s with
      | .error why => .next (s.raise why)
      | .ok i => exec i s := by
  cases hf : fetchInstr s <;> simp [step, h, hf]

theorem step_at (s : State) (i : Instr) (h : s.run = .running) (hi : fetchInstr s = .ok i) : step s = exec i s := by
  rw [step_running s h, hi]

/-- A step with a next state is of a running core, and either stops at its fetch or executes what it fetched. -/
theorem step_next (s t : State) (h : step s = .next t) :
    s.run = .running ∧
      ((∃ why, fetchInstr s = .error why ∧ t = s.raise why) ∨ (∃ i, fetchInstr s = .ok i ∧ exec i s = .next t)) := by
  cases hr : s.run with
  | stopped why => rw [step_stopped s why hr] at h; cases h
  | running =>
    refine ⟨rfl, ?_⟩
    rw [step_running s hr] at h
    cases hf : fetchInstr s with
    | error why => rw [hf] at h; injection h with h; exact .inl ⟨why, rfl, h.symm⟩
    | ok i => rw [hf] at h; exact .inr ⟨i, rfl, h⟩

/-- What execution of one instruction can do: complete, and then `run` is as it was, or raise DataOutOfRange. -/
theorem exec_next (i : Instr) (s : State) :
    ∃ t, exec i s = .next t ∧ (t.run = s.run ∨ ∃ a, t = s.raise ⟨.dataOutOfRange, a⟩) := by
  cases i with
  | push r =>
    rw [exec_push]
    split
    · exact ⟨_, rfl, .inl rfl⟩
    · exact ⟨_, rfl, .inr ⟨_, rfl⟩⟩
  | pop r =>
    rw [exec_pop]
    split
    · exact ⟨_, rfl, .inl rfl⟩
    · exact ⟨_, rfl, .inr ⟨_, rfl⟩⟩
  | nop => exact ⟨_, rfl, .inl rfl⟩
  | sti r v => exact ⟨_, rfl, .inl rfl⟩
  | jmpabs a => exact ⟨_, rfl, .inl rfl⟩
  | mov d r => exact ⟨_, rfl, .inl rfl⟩
  | xor d r => exact ⟨_, rfl, .inl rfl⟩
  | add d r => exact ⟨_, rfl, .inl rfl⟩
  | invalid => exact ⟨_, rfl, .inl rfl⟩

end Sys2Proof.Machine
end

