-- ==== Sys2Proof/Laws/PerInstr.lean ====
section
/-!
SUPPORT. Laws/PerInstr.lean: statements made of every instruction as a term, one lemma per constructor.
-/

namespace Sys2Proof.Laws.EncodedLength

/-- An encoding has as many bytes as the ISA table gives the instruction, 1, 2 or 5, and its first byte is the one the
table's row of that instruction accepts (30_encoding.md R80, R92). -/
def Statement (i : Instr) : Prop :=
  ∀ bs, encode i = some bs →
    bs.length = i.length ∧ ∃ row ∈ isaTable, row.id = i.id ∧ row.length = i.length ∧ row.accepts (bs.headD 0) = true

/-- The rows whose register field stands in the first byte accept it with every register. -/
theorem accepts_reg : ∀ r : Reg,
    ((0x70 ||| r.setWidth 8 : Byte) &&& 0xf0 == 0x70) = true ∧ ((0x50 ||| r.setWidth 8 : Byte) &&& 0xf0 == 0x50) = true ∧
      ((0x60 ||| r.setWidth 8 : Byte) &&& 0xf0 == 0x60) = true := by
  decide

theorem nop : Statement .nop := by
  rintro bs ⟨⟩; exact ⟨rfl, isaTable[0], by simp [isaTable], rfl, rfl, rfl⟩
theorem sti (reg : Reg) (imm : Word) : Statement (.sti reg imm) := by
  rintro bs ⟨⟩; exact ⟨rfl, isaTable[1], by simp [isaTable], rfl, rfl, (accepts_reg reg).1⟩
theorem jmpabs (addr : Word) : Statement (.jmpabs addr) := by
  rintro bs ⟨⟩; exact ⟨rfl, isaTable[2], by simp [isaTable], rfl, rfl, by simp [isaTable, IsaRow.accepts]⟩
theorem push (reg : Reg) : Statement (.push reg) := by
  rintro bs ⟨⟩; exact ⟨rfl, isaTable[3], by simp [isaTable], rfl, rfl, (accepts_reg reg).2.1⟩
theorem pop (reg : Reg) : Statement (.pop reg) := by
  rintro bs ⟨⟩; exact ⟨rfl, isaTable[4], by simp [isaTable], rfl, rfl, (accepts_reg reg).2.2⟩
theorem mov (dst src : Reg) : Statement (.mov dst src) := by
  rintro bs ⟨⟩; exact ⟨rfl, isaTable[5], by simp [isaTable], rfl, rfl, by simp [isaTable, IsaRow.accepts]⟩
theorem xor (dst src : Reg) : Statement (.xor dst src) := by
  rintro bs ⟨⟩; exact ⟨rfl, isaTable[6], by simp [isaTable], rfl, rfl, by simp [isaTable, IsaRow.accepts]⟩
theorem add (dst src : Reg) : Statement (.add dst src) := by
  rintro bs ⟨⟩; exact ⟨rfl, isaTable[7], by simp [isaTable], rfl, rfl, by simp [isaTable, IsaRow.accepts]⟩
theorem invalid : Statement .invalid := by
  rintro bs ⟨⟩

end Sys2Proof.Laws.EncodedLength
end

