-- ==== Sys2Proof/Laws/Run.lean ====
section
/-!
SUPPORT. Laws/Run.lean: runs of several steps, and what is decoded at a state.
-/

namespace Sys2Proof.Machine

@[simp] theorem runFor_zero (s : State) : runFor 0 s = .next s := rfl

/-- One more step at the front of a run. -/
theorem runFor_succ (k : Nat) (s : State) :
    runFor (k + 1) s =
      match step s with
      | .next t => runFor k t
      | .fault r => .fault r
      | .refused r => .refused r := by
  unfold runFor
  cases h : step s <;>
    · have h' : Host.Core.step Sys2Proof.core s = _ := h
      simp only [Host.Core.run, h']
      rfl

/-- A property every step keeps holds at the end of a run that starts with it. -/
theorem runFor_keeps (P : State → Prop) (hstep : ∀ s t, P s → step s = .next t → P t) (k : Nat) (s t : State)
    (hs : P s) (h : runFor k s = .next t) : P t := by
  induction k generalizing s with
  | zero => rw [runFor_zero] at h; injection h with h; exact h ▸ hs
  | succ k ih =>
    rw [runFor_succ] at h
    cases hu : step s with
    | next u => rw [hu] at h; exact ih u (hstep s u hs hu) h
    | fault r => rw [hu] at h; cases h
    | refused r => rw [hu] at h; cases h

theorem decodedId_of_fetch (s : State) (i : Instr) (h : fetchInstr s = .ok i) : decodedId s = some i.id := by
  simp [decodedId, h]

/-- A core is running or stopped. -/
theorem State.run_cases (s : State) : s.run = .running ∨ ∃ why, s.run = .stopped why := by
  cases s.run with
  | running => exact .inl rfl
  | stopped why => exact .inr ⟨why, rfl⟩

end Sys2Proof.Machine
end

