-- ==== Sys2Proof/Laws/Text.lean ====
section
/-!
SUPPORT. Laws/Text.lean: rendering and reading digits, tokens and statements, and what the two passes make of canonical
texts.
-/

namespace Sys2Proof.Machine

/-! ## Digits -/

/-- Reading a digit character back. -/
theorem digitValue_digitChar : ∀ d : Fin 16, digitValue (digitChar d) = some d.val := by decide

/-- Reading rendered digits back gives the number, whatever digits follow. -/
theorem digitsFrom_renderDigits (base : Nat) (h1 : 1 < base) (h2 : base ≤ 16) (fuel : Nat) :
    ∀ (n : Nat) (acc : Text), n < base ^ fuel →
      digitsFrom base (renderDigits base fuel n acc) 0 = digitsFrom base acc n := by
  induction fuel with
  | zero => intro n acc h; obtain rfl : n = 0 := by simpa using h
            rfl
  | succ fuel ih =>
    intro n acc h
    have hm : n % base < base := Nat.mod_lt _ (by omega)
    have hd := digitValue_digitChar ⟨n % base, by omega⟩
    simp only at hd
    simp only [renderDigits]
    split
    · next h0 =>
      simp only [digitsFrom, hd, hm, ↓reduceIte]
      congr 1
      have := Nat.div_add_mod n base
      rw [h0] at this; simpa using this
    · rw [ih _ _ (by rw [Nat.div_lt_iff_lt_mul (by omega)]; rwa [Nat.pow_succ] at h)]
      simp only [digitsFrom, hd, hm, ↓reduceIte]
      congr 1
      rw [Nat.mul_comm]; exact Nat.div_add_mod n base

theorem renderDigits_ne_nil (base fuel n : Nat) (acc : Text) : renderDigits base (fuel + 1) n acc ≠ [] := by
  induction fuel generalizing n acc with
  | zero => simp only [renderDigits]; split <;> simp
  | succ fuel ih =>
    rw [renderDigits]
    split
    · simp
    · exact ih _ _

theorem length_renderDigits (base fuel n : Nat) (acc : Text) :
    (renderDigits base fuel n acc).length ≤ fuel + acc.length := by
  induction fuel generalizing n acc with
  | zero => simp [renderDigits]
  | succ fuel ih =>
    rw [renderDigits]
    split
    · simp
    · exact (ih _ _).trans (by simp only [List.length_cons]; omega)

/-- A character that neither ends a token nor a statement. -/
abbrev Plain (c : Char) : Prop := c ≠ ';' ∧ isSeparator c = false

theorem plain_digitChar : ∀ d : Fin 16, Plain (digitChar d) := by decide

theorem plain_renderDigits (base : Nat) (h1 : 0 < base) (h2 : base ≤ 16) (fuel : Nat) :
    ∀ (n : Nat) (acc : Text), (∀ c ∈ acc, Plain c) → ∀ c ∈ renderDigits base fuel n acc, Plain c := by
  induction fuel with
  | zero => intro n acc h; exact h
  | succ fuel ih =>
    intro n acc h
    have hd := plain_digitChar ⟨n % base, (Nat.mod_lt _ h1).trans_le h2⟩
    rw [renderDigits]
    split
    · intro c hc
      rcases List.mem_cons.mp hc with rfl | hc
      · exact hd
      · exact h c hc
    · refine ih _ _ fun c hc => ?_
      rcases List.mem_cons.mp hc with rfl | hc
      · exact hd
      · exact h c hc

/-! ## Tokens -/

/-- Plain characters join the token being read. -/
theorem scan_plain (w rest cur : Text) (toks : List Token) (h : ∀ c ∈ w, Plain c) :
    scanStatement (w ++ rest) cur toks = scanStatement rest (w.reverse ++ cur) toks := by
  induction w generalizing cur with
  | nil => rfl
  | cons c w ih =>
    obtain ⟨h1, h2⟩ := h c List.mem_cons_self
    rw [List.cons_append, scanStatement, if_neg h1, if_neg (by simp [h2]), ih _ (fun d hd => h d (List.mem_cons_of_mem _ hd))]
    simp

/-- A plain word ended by a separator is one token. -/
theorem scan_word (w rest : Text) (toks : List Token) (c : Char) (h : ∀ c ∈ w, Plain c) (hn : w ≠ [])
    (hl : w.length ≤ 31) (ht : toks.length < 4) (hc : c ≠ ';') (hs : isSeparator c = true) :
    scanStatement (w ++ c :: rest) [] toks = scanStatement rest [] (tokenOf w :: toks) := by
  rw [scan_plain _ _ _ _ h]
  simp [scanStatement, hc, hs, pushToken, hn, maxTokenLength, maxTokens, show ¬ 31 < w.length by omega, show ¬ 4 ≤ toks.length by omega]

/-- A separator where no token is being read is skipped. -/
theorem scan_space (rest : Text) (toks : List Token) (c : Char) (hc : c ≠ ';') (hs : isSeparator c = true) :
    scanStatement (c :: rest) [] toks = scanStatement rest [] toks := by
  simp [scanStatement, hc, hs, pushToken]

/-- A plain word ended by a semicolon is the last token. -/
theorem scan_last (w rest : Text) (toks : List Token) (h : ∀ c ∈ w, Plain c) (hn : w ≠ [])
    (hl : w.length ≤ 31) (ht : toks.length < 4) :
    scanStatement (w ++ ';' :: rest) [] toks = .ok ((tokenOf w :: toks).reverse, rest) := by
  rw [scan_plain _ _ _ _ h]
  simp [scanStatement, pushToken, hn, maxTokenLength, maxTokens, show ¬ 31 < w.length by omega, show ¬ 4 ≤ toks.length by omega]

/-! ## Operand texts -/

theorem plain_registerText (r : Reg) : ∀ c ∈ registerText r, Plain c := by
  intro c hc
  rcases List.mem_append.mp hc with hc | hc
  · exact (show ∀ c ∈ ['%', 'g', 'p', 'r'], Plain c by simp [Plain, isSeparator]) c hc
  · exact plain_renderDigits 10 (by omega) (by omega) 2 _ _ (by simp) c hc

theorem plain_immediateText (v : Word) : ∀ c ∈ immediateText v, Plain c := by
  intro c hc
  rcases List.mem_append.mp hc with hc | hc
  · exact (show ∀ c ∈ ['$', '0', 'x'], Plain c by simp [Plain, isSeparator]) c hc
  · exact plain_renderDigits 16 (by omega) (by omega) 8 _ _ (by simp) c hc

theorem length_registerText (r : Reg) : (registerText r).length ≤ 31 := by
  have := length_renderDigits 10 2 r.toNat []
  rw [registerText, List.length_append]; simp at this ⊢; omega

theorem length_immediateText (v : Word) : (immediateText v).length ≤ 31 := by
  have := length_renderDigits 16 8 v.toNat []
  rw [immediateText, List.length_append]; simp at this ⊢; omega

theorem registerText_ne (r : Reg) : registerText r ≠ [] := by simp [registerText]
theorem immediateText_ne (v : Word) : immediateText v ≠ [] := by simp [immediateText]

theorem tokenOf_registerText (r : Reg) :
    tokenOf (registerText r) = ⟨.register, 'g' :: 'p' :: 'r' :: renderDigits 10 2 r.toNat []⟩ := rfl
theorem tokenOf_immediateText (v : Word) :
    tokenOf (immediateText v) = ⟨.immediate, '0' :: 'x' :: renderDigits 16 8 v.toNat []⟩ := rfl

/-- A register operand parses to its index. -/
theorem parseRegister_text (r : Reg) :
    parseRegister ('g' :: 'p' :: 'r' :: renderDigits 10 2 r.toNat []) = .ok (r.setWidth 32) := by
  revert r; decide

/-- An immediate operand parses to its value. -/
theorem parseImmediate_text (v : Word) :
    parseImmediate ('0' :: 'x' :: renderDigits 16 8 v.toNat []) = .ok v := by
  have h := digitsFrom_renderDigits 16 (by omega) (by omega) 8 v.toNat [] (by have := v.isLt; simpa using this)
  have : parseLiteral ('0' :: 'x' :: renderDigits 16 8 v.toNat []) = some v.toNat := by
    show parseDigits 16 (renderDigits 16 8 v.toNat []) = _
    rw [parseDigits, if_neg (renderDigits_ne_nil 16 7 _ _), h]; rfl
  rw [parseImmediate, this]
  simp [v.isLt]



/-! ## Statements -/

/-- A space and a comma separate tokens and do not end a statement. -/
theorem sep_facts : (' ' : Char) ≠ ';' ∧ isSeparator ' ' = true ∧ (',' : Char) ≠ ';' ∧ isSeparator ',' = true := by decide

theorem mnemonic_plain (id : InstrId) : ∀ c ∈ id.mnemonic, Plain c := by cases id <;> simp [InstrId.mnemonic, Plain, isSeparator]
theorem mnemonic_ne (id : InstrId) : id.mnemonic ≠ [] := by cases id <;> decide
theorem mnemonic_length (id : InstrId) : id.mnemonic.length ≤ 31 := by cases id <;> decide
theorem tokenOf_mnemonic (id : InstrId) : tokenOf id.mnemonic = ⟨.mnemonic, id.mnemonic⟩ := by cases id <;> rfl

/-- The tokens of a two-operand text. -/
theorem scan_two (id : InstrId) (a b rest : Text)
    (ha : ∀ c ∈ a, Plain c) (hna : a ≠ []) (hla : a.length ≤ 31)
    (hb : ∀ c ∈ b, Plain c) (hnb : b ≠ []) (hlb : b.length ≤ 31) :
    scanStatement (twoOperandText id a b ++ rest) [] [] =
      .ok ([⟨.mnemonic, id.mnemonic⟩, tokenOf a, tokenOf b], rest) := by
  obtain ⟨sp, ss, cp, cs⟩ := sep_facts
  have e : twoOperandText id a b ++ rest = id.mnemonic ++ ' ' :: (a ++ ',' :: (' ' :: (b ++ ';' :: rest))) := by
    simp [twoOperandText]
  rw [e, scan_word _ _ _ _ (mnemonic_plain id) (mnemonic_ne id) (mnemonic_length id) (by simp) sp ss,
    scan_word _ _ _ _ ha hna hla (by simp) cp cs, scan_space _ _ _ sp ss, scan_last _ _ _ hb hnb hlb (by simp),
    tokenOf_mnemonic]; rfl

/-- The tokens of a one-operand text. -/
theorem scan_one (id : InstrId) (a rest : Text) (ha : ∀ c ∈ a, Plain c) (hna : a ≠ []) (hla : a.length ≤ 31) :
    scanStatement (oneOperandText id a ++ rest) [] [] = .ok ([⟨.mnemonic, id.mnemonic⟩, tokenOf a], rest) := by
  obtain ⟨sp, ss, -, -⟩ := sep_facts
  have e : oneOperandText id a ++ rest = id.mnemonic ++ ' ' :: (a ++ ';' :: rest) := by simp [oneOperandText]
  rw [e, scan_word _ _ _ _ (mnemonic_plain id) (mnemonic_ne id) (mnemonic_length id) (by simp) sp ss,
    scan_last _ _ _ ha hna hla (by simp), tokenOf_mnemonic]; rfl

/-- The canonical text of an instruction is one statement, whose instruction it is. -/
theorem assembleStatement_disassemble (i : Instr) (h : i.wellFormed = true) (rest : Text) :
    assembleStatement (disassemble i ++ rest) = .ok (.ok ⟨none, i.bundle, none⟩, rest) := by
  have rr (d : Reg) := plain_registerText d
  have rn (d : Reg) := registerText_ne d
  have rl (d : Reg) := length_registerText d
  cases i with
  | invalid => cases h
  | nop =>
    have e : disassemble .nop ++ rest = InstrId.nop.mnemonic ++ ';' :: rest := by simp [disassemble]
    rw [assembleStatement, e, scan_last _ _ _ (mnemonic_plain _) (mnemonic_ne _) (mnemonic_length _) (by simp)]
    rfl
  | sti reg imm =>
    rw [disassemble, assembleStatement, scan_two _ _ _ _ (rr _) (rn _) (rl _) (plain_immediateText _) (immediateText_ne _)
      (length_immediateText _), tokenOf_registerText, tokenOf_immediateText]
    simp [parseStatement, parseInstr, isaTable, fillOperands, fillOperand, parseRegister_text, parseImmediate_text,
      fillSlot, Instr.bundle, InstrId.mnemonic]
    rfl
  | jmpabs addr =>
    rw [disassemble, assembleStatement, scan_one _ _ _ (plain_immediateText _) (immediateText_ne _)
      (length_immediateText _), tokenOf_immediateText]
    simp [parseStatement, parseInstr, isaTable, fillOperands, fillOperand, parseImmediate_text,
      fillSlot, Instr.bundle, InstrId.mnemonic]
    rfl
  | push r =>
    rw [disassemble, assembleStatement, scan_one _ _ _ (rr _) (rn _) (rl _), tokenOf_registerText]
    simp [parseStatement, parseInstr, isaTable, fillOperands, fillOperand, parseRegister_text,
      fillSlot, Instr.bundle, InstrId.mnemonic]
    rfl
  | pop r =>
    rw [disassemble, assembleStatement, scan_one _ _ _ (rr _) (rn _) (rl _), tokenOf_registerText]
    simp [parseStatement, parseInstr, isaTable, fillOperands, fillOperand, parseRegister_text,
      fillSlot, Instr.bundle, InstrId.mnemonic]
    rfl
  | mov d s | xor d s | add d s =>
    rw [disassemble, assembleStatement, scan_two _ _ _ _ (rr _) (rn _) (rl _) (rr _) (rn _) (rl _), tokenOf_registerText,
      tokenOf_registerText]
    simp [parseStatement, parseInstr, isaTable, fillOperands, fillOperand, parseRegister_text,
      fillSlot, Instr.bundle, InstrId.mnemonic]
    rfl

/-! ## The first pass and the link pass over canonical texts -/

/-- The statements of canonical texts, with the address of each. -/
def stmtsFrom : Nat → List Instr → List (Nat × Stmt)
  | _, [] => []
  | pc, i :: is => (pc, ⟨none, i.bundle, none⟩) :: stmtsFrom (pc + i.length) is

theorem bundle_length (i : Instr) : i.bundle.length = i.length := by cases i <;> rfl
theorem bundle_instr (i : Instr) : i.bundle.instr = i := by
  cases i <;> simp [Instr.bundle, Bundle.instr]

/-- Every canonical text has a character, so the first pass has fuel enough. -/
theorem disassemble_pos (i : Instr) : 1 ≤ (disassemble i).length := by
  cases i <;> simp [disassemble, oneOperandText, twoOperandText, InstrId.mnemonic]

/-- Canonical statements put before what was found after them. -/
def Parsed.addCanonical (p : Parsed) (pc : Nat) (is : List Instr) : Parsed := ⟨stmtsFrom pc is ++ p.stmts, p.errors⟩

@[simp] theorem Parsed.addCanonical_stmts (p : Parsed) (pc : Nat) (is : List Instr) :
    (p.addCanonical pc is).stmts = stmtsFrom pc is ++ p.stmts := rfl
@[simp] theorem Parsed.addCanonical_errors (p : Parsed) (pc : Nat) (is : List Instr) :
    (p.addCanonical pc is).errors = p.errors := rfl
@[simp] theorem Parsed.addCanonical_nil (p : Parsed) (pc : Nat) : p.addCanonical pc [] = p := rfl
@[simp] theorem Parsed.add_error (p : Parsed) (pc : Nat) (e : AsmError) :
    p.add pc (.error e) = ⟨p.stmts, e :: p.errors⟩ := rfl
@[simp] theorem Parsed.add_ok (p : Parsed) (pc : Nat) (st : Stmt) :
    p.add pc (.ok st) = ⟨(pc, st) :: p.stmts, p.errors⟩ := rfl

/-- The first pass over canonical texts before any further text. -/
theorem firstPass_flatMap (is : List Instr) (h : ∀ i ∈ is, i.wellFormed = true) (fuel : Nat) (rest : Text) (pc : Nat) :
    firstPass (is.length + fuel) (is.flatMap disassemble ++ rest) pc =
      match firstPass fuel rest (pc + (is.map Instr.length).sum) with
      | .error e => .error e
      | .ok p => .ok (p.addCanonical pc is) := by
  induction is generalizing pc with
  | nil =>
    simp only [List.length_nil, Nat.zero_add, List.flatMap_nil, List.nil_append, List.map_nil, List.sum_nil, Nat.add_zero]
    cases firstPass fuel rest pc <;> simp
  | cons i is ih =>
    have hlen : (i :: is).length + fuel = (is.length + fuel) + 1 := by rw [List.length_cons]; omega
    rw [hlen, firstPass, List.flatMap_cons, List.append_assoc, assembleStatement_disassemble i (h i List.mem_cons_self)]
    simp only [parsedLength, bundle_length]
    rw [ih (fun j hj => h j (List.mem_cons_of_mem _ hj))]
    simp only [List.map_cons, List.sum_cons, Nat.add_assoc]
    cases firstPass fuel rest (pc + (i.length + (is.map Instr.length).sum)) <;> simp [stmtsFrom, Parsed.addCanonical]

/-- Canonical texts define no label. -/
theorem labelsOf_stmtsFrom (is : List Instr) (pc : Nat) (sts : List (Nat × Stmt)) :
    labelsOf (stmtsFrom pc is ++ sts) = labelsOf sts := by
  induction is generalizing pc with
  | nil => rfl
  | cons i is ih =>
    have := ih (pc + i.length)
    simp only [labelsOf] at this ⊢
    simp [stmtsFrom, this]

/-- The image of canonical texts before any further statements. -/
theorem linkImage_stmtsFrom (labels : List (Text × Nat)) (is : List Instr) (h : ∀ i ∈ is, i.wellFormed = true)
    (pc : Nat) (sts : List (Nat × Stmt)) :
    linkImage labels (stmtsFrom pc is ++ sts) =
      match linkImage labels sts with
      | .error e => .error e
      | .ok bs => .ok (is.flatMap (fun i => (encode i).getD []) ++ bs) := by
  induction is generalizing pc with
  | nil => simp [stmtsFrom]; split <;> simp_all
  | cons i is ih =>
    have hs := h i List.mem_cons_self
    rw [← encode_isSome] at hs
    obtain ⟨bs, hbs⟩ := Option.isSome_iff_exists.mp hs
    simp only [stmtsFrom, List.cons_append, linkImage, linkStatement, bundle_instr, hbs]
    rw [ih (fun j hj => h j (List.mem_cons_of_mem _ hj))]
    cases linkImage labels sts <;> simp [hbs]

theorem length_flatMap_le (is : List Instr) : is.length ≤ (is.flatMap disassemble).length := by
  induction is with
  | nil => simp
  | cons i is ih => have := disassemble_pos i; rw [List.flatMap_cons, List.length_append, List.length_cons]; omega

theorem firstPass_nil (fuel pc : Nat) : firstPass (fuel + 1) [] pc = .ok ⟨[], []⟩ := by
  simp [firstPass, assembleStatement, scanStatement]

end Sys2Proof.Machine
end

