-- ==== Sys2Proof/Tests/Slice0.lean ====
section
/-!
SUPPORT. Tests/Slice0.lean: checks of the model against words and vectors of 95_test_vectors.md (each test names its
vector), and for every statement with hypotheses a witness that meets them.
-/

namespace Sys2Proof.Tests

open Sys2Proof.Machine

/-! ## Helpers -/

/-- A core with MEM_SIZE = 8 and `spr` = 8, `ipr` = 0, every other register 0, and these bytes from address 0. -/
def small (bs : List Byte) : State :=
  { State.reset with lastAddr := 7, spr := 8, mem := Memory.writeBytes [] 0 bs }

/-- The next state, where there is one. -/
def after (o : Host.Outcome State Fault Refusal) : Option State :=
  match o with
  | .next t => some t
  | _ => none

/-- The instruction a list of bytes decodes to, where all of it is there. -/
def decodes (bs : List Byte) : Option Instr :=
  match decode bs with
  | .ok (i, _) => some i
  | .error _ => none

theorem next_of_after (o : Host.Outcome State Fault Refusal) (t : State) (h : after o = some t) : o = .next t := by
  cases o <;> cases h
  rfl

/-! ## WellFormed -/

theorem test_wf_accepts : Bundle.wellFormed ⟨.sti, 0xdd0000ff, 2, 5⟩ = true := by decide
theorem test_wf_invalid_id : Bundle.wellFormed ⟨.invalid, 0, 0, 0⟩ = false := by decide
theorem test_wf_reg_out_of_range : Bundle.wellFormed ⟨.push, 16, 0, 1⟩ = false := by decide
theorem test_wf_sti_reg_is_slot_1 : Bundle.wellFormed ⟨.sti, 2, 0xdd0000ff, 5⟩ = false := by decide
theorem test_wf_unused_slot : Bundle.wellFormed ⟨.jmpabs, 0x14, 1, 5⟩ = false := by decide
theorem test_wf_length : Bundle.wellFormed ⟨.mov, 4, 2, 5⟩ = false := by decide
theorem test_wf_instr : Instr.wellFormed .nop = true ∧ Instr.wellFormed .invalid = false := by decide

/-! ## Decoding, bit by bit from the encoding strings of opcode_table.json and 95 section 2.1 -/

theorem test_decode_nop : decodes [0b10010000] = some .nop := by decide
theorem test_decode_sti :
    decodes [0b01110010, 0b11111111, 0b00000000, 0b00000000, 0b11011101] = some (.sti 2 0xdd0000ff) := by decide
theorem test_decode_jmpabs :
    decodes [0b10010001, 0b00010100, 0b00000000, 0b00000000, 0b00000000] = some (.jmpabs 0x14) := by decide
theorem test_decode_push : decodes [0b01011111] = some (.push 15) := by decide
theorem test_decode_pop : decodes [0b01100110] = some (.pop 6) := by decide
theorem test_decode_mov : decodes [0b11000000, 0b01000010] = some (.mov 4 2) := by decide
theorem test_decode_xor : decodes [0b10100000, 0b00010010] = some (.xor 1 2) := by decide
theorem test_decode_add : decodes [0b10100001, 0b11111110] = some (.add 15 14) := by decide
theorem test_decode_invalid : [0x00, 0x4f, 0x80, 0x8f, 0x92, 0x9f, 0xa2, 0xbf, 0xc1, 0xff].map (fun b => decodes [b]) =
    List.replicate 10 (some .invalid) := by decide
theorem test_decode_truncated : decodes [0b01110010, 0b11111111] = none := by decide
theorem test_bundle_slots : (decBytes [0x72, 0xff, 0x00, 0x00, 0xdd]).bundle = ⟨.sti, 0xdd0000ff, 2, 5⟩ := by decide

/-- The opcode table's numbering: the first byte is the least significant, operand bytes above the row's bits are 0. -/
theorem test_table_word :
    decodeTableWord 40 0x0000001491 = some (.jmpabs 0x14) ∧ decodeTableWord 16 0x42c0 = some (.mov 4 2) ∧
    decodeTableWord 8 0x70 = some (.sti 0 0) ∧ decodeTableWord 8 0x00 = some .invalid := by decide

/-! ## One step each, from the vectors of 95 sections 2.2 to 2.5 -/

/-- V-F1. -/
theorem test_nop : (after (step { small [0, 0, 0, 0, 0, 0, 0, 0x90] with ipr := 7 })).map (fun t => (t.ipr, t.run)) =
    some (8, .running) := by decide

/-- V-M3. -/
theorem test_sti : (after (step ({ small [0x7f, 0x78, 0x56, 0x34, 0x12] with flagr := 3 }.setGpr 15 0xffffffff))).map
    (fun t => (t.getGpr 15, t.flagr, t.ipr)) = some (0x12345678, 3, 5) := by decide

/-- V-M4: loading 0 does not set Zero; the instruction ends at the end of memory. -/
theorem test_sti_at_top : (after (step ({ small [0, 0, 0, 0x70] with ipr := 3, flagr := 2 }.setGpr 0 5))).map
    (fun t => (t.getGpr 0, t.flagr, t.ipr)) = some (0, 2, 8) := by decide

/-- V-J1: no length is added after a jump. -/
theorem test_jmpabs : (after (step (small [0x91, 0x03]))).map (fun t => (t.ipr, t.run)) = some (3, .running) := by decide

/-- V-J4: five bytes do not fit. -/
theorem test_jmpabs_cut : (after (step { small [0, 0, 0, 0, 0x91, 0x03] with ipr := 4 })).map (fun t => (t.ipr, t.run)) =
    some (4, .stopped ⟨.fetchOutOfRange, 4⟩) := by decide

/-- V-K11: the PUSH overwrites its own opcode byte. -/
theorem test_push : (after (step ({ small [0x50] with spr := 4 }.setGpr 0 0x11223344))).map
    (fun t => (t.mem.readBytes 0 8, t.spr, t.ipr)) = some ([0x44, 0x33, 0x22, 0x11, 0, 0, 0, 0], 0, 1) := by decide

/-- V-K6: no partial store. -/
theorem test_push_out_of_range : (after (step ({ small [0x50] with spr := 10 }.setGpr 0 1))).map
    (fun t => (t.mem.readBytes 0 8, t.spr, t.ipr, t.run)) =
    some ([0x50, 0, 0, 0, 0, 0, 0, 0], 10, 0, .stopped ⟨.dataOutOfRange, 6⟩) := by decide

/-- V-K10: unaligned, from code bytes. -/
theorem test_pop : (after (step ({ small [0x60, 0x11, 0x22, 0x33, 0x44] with spr := 1 }.setGpr 0 9))).map
    (fun t => (t.getGpr 0, t.spr, t.ipr)) = some (0x44332211, 5, 1) := by decide

/-- V-K8: the empty stack. -/
theorem test_pop_empty : (after (step (small [0x60]))).map (fun t => (t.spr, t.ipr, t.run)) =
    some (8, 0, .stopped ⟨.dataOutOfRange, 8⟩) := by decide

/-- V-M1. -/
theorem test_mov : (after (step (({ small [0xc0, 0x42] with flagr := 3 }.setGpr 2 0xdd0000ff).setGpr 4 7))).map
    (fun t => (t.getGpr 4, t.getGpr 2, t.flagr, t.ipr)) = some (0xdd0000ff, 0xdd0000ff, 3, 2) := by decide

/-- V-F3. -/
theorem test_mov_cut : (after (step { small [0, 0, 0, 0, 0, 0, 0, 0xc0] with ipr := 7 })).map (fun t => (t.ipr, t.run)) =
    some (7, .stopped ⟨.fetchOutOfRange, 7⟩) := by decide

/-- V-A1: the old Carry and Zero are both lost. -/
theorem test_xor : (after (step (({ small [0xa0, 0x12] with flagr := 3 }.setGpr 1 0xff00ff00).setGpr 2 0x0ff00ff0))).map
    (fun t => (t.getGpr 1, t.getGpr 2, t.flagr)) = some (0xf0f0f0f0, 0x0ff00ff0, 0) := by decide

/-- V-A3. -/
theorem test_xor_self : (after (step ({ small [0xa0, 0x33] with flagr := 1 }.setGpr 3 0xdeadbeef))).map
    (fun t => (t.getGpr 3, t.flagr, t.ipr)) = some (0, 2, 2) := by decide

/-- V-A4: Carry and Zero together. -/
theorem test_add : (after (step (((small [0xa1, 0x01]).setGpr 0 0xffffffff).setGpr 1 1))).map
    (fun t => (t.getGpr 0, t.flagr, t.ipr)) = some (0, 3, 2) := by decide

/-- V-A8: signed overflow is not flagged; V-A9's old Carry is not added in. -/
theorem test_add_no_carry_in : (after (step (({ small [0xa1, 0x01] with flagr := 3 }.setGpr 0 0x7fffffff).setGpr 1 1))).map
    (fun t => (t.getGpr 0, t.flagr)) = some (0x80000000, 0) := by decide

/-- V-I2. -/
theorem test_invalid : after (step ({ small [0xa2, 0x01] with flagr := 3 }.setGpr 0 1)) =
    some ({ small [0xa2, 0x01] with flagr := 3, ipr := 1 }.setGpr 0 1) := by decide

/-- 95 section 2.5, last paragraph: with MEM_SIZE = 2^32 the instruction pointer wraps. -/
theorem test_ipr_wraps : (after (step { State.reset with ipr := 0xffffffff })).map (fun t => (t.ipr, t.run)) =
    some (0, .running) := by decide

/-- V-F5, and that a stopped core does not step. -/
theorem test_stopped : (after (step { small [] with ipr := 8 })).map (fun t => (t.run, after (step t))) =
    some (.stopped ⟨.fetchOutOfRange, 8⟩, none) := by decide

/-- Every placed instruction is the first after reset. -/
theorem test_placed_runs_first :
    (after (step (State.reset.withFetchWord 40 0xdd0000ff72))).map (fun t => (t.getGpr 2, t.ipr)) =
      some (0xdd0000ff, 5) ∧
    (after (step (State.reset.withFetchWord 8 0x50))).map (fun t => (t.spr, t.run)) = some (0xfffffffc, .running) := by
  decide

/-! ## Assembly text, from 95 section 2.6 -/

theorem test_asm_comma_optional :
    assemble "sti %gpr2 $0xdd0000ff;".toList = .ok [0x72, 0xff, 0x00, 0x00, 0xdd] := by decide
theorem test_asm_octal : assemble "sti %gpr0, $010;".toList = .ok [0x70, 0x08, 0x00, 0x00, 0x00] := by decide
theorem test_asm_self_label : assemble "@l jmpabs @l;".toList = .ok [0x91, 0x00, 0x00, 0x00, 0x00] := by decide
theorem test_asm_unknown : assemble "sub %gpr0, %gpr1;".toList = .error .unknownMnemonic := by decide
theorem test_asm_wrong_type : assemble "mov %gpr1, $5;".toList = .error .wrongOperandType := by decide
theorem test_asm_no_semicolon : assemble "nop".toList = .error .unexpectedEndOfInput := by decide
/-- R195: the parser error of 95 section 2.6 is fatal to its own statement only. -/
theorem test_asm_goes_on : assembleUnit "sub %gpr0, %gpr1; push %gpr5;".toList = .ok ⟨[0x55], [.unknownMnemonic]⟩ := by decide
theorem test_asm_reg_16 : assemble "sti %gpr16, $1;".toList = .error .noEncoding := by decide

/-! ## Witnesses: each statement's hypotheses are met -/

theorem witness_DecodeInvertsEncode :
    Bundle.wellFormed ⟨.sti, 0xdd0000ff, 2, 5⟩ = true ∧ Instr.wellFormed (.add 15 14) = true ∧
    decode [0xc0, 0x42, 0x00] = .ok (.mov 4 2, [0x00]) ∧ Instr.mov 4 2 ≠ .invalid := by decide

theorem witness_IsaTableRowsExclusive : isaTable.reverse.Perm isaTable := List.reverse_perm _

theorem witness_BytesBeyondLengthIgnored :
    [(0x90 : Byte)] ≠ [] ∧ [(0x90 : Byte)].take (decBytes [0x90]).size = [0x90, 0xff].take (decBytes [0x90]).size ∧
    (decBytes [0x90]).size ≤ [(0x90 : Byte)].length := by decide

/-- `StopsWhenCut` for lengths 1, 2 and 5: at the end of memory and one byte short of it. -/
theorem witness_StopsWhenCut :
    (let s := { small [] with ipr := 8 }
     s.run = .running ∧ (s.ipr.toNat < s.memSize → s.mem.read s.ipr.toNat = 0x90) ∧ s.memSize < s.ipr.toNat + 1) ∧
    (let s := { small [0, 0, 0, 0, 0, 0, 0, 0xc0] with ipr := 7 }
     s.run = .running ∧ (s.ipr.toNat < s.memSize → s.mem.read s.ipr.toNat = 0xc0) ∧ s.memSize < s.ipr.toNat + 2) ∧
    (let s := { small [0, 0, 0, 0, 0x91] with ipr := 4 }
     s.run = .running ∧ (s.ipr.toNat < s.memSize → s.mem.read s.ipr.toNat = 0x91) ∧ s.memSize < s.ipr.toNat + 5) := by
  decide

/-- A target at the end of memory, and one where the instruction does not fit. -/
theorem witness_JmpabsRule :
    (let s := small [0, 0, 0, 0, 0x70]
     s.run = .running ∧ s.memSize < (8 : Word).toNat + (decBytes [s.mem.read (8 : Word).toNat]).size ∧
     s.memSize < (4 : Word).toNat + (decBytes [s.mem.read (4 : Word).toNat]).size) := by decide

/-- The ends of the five ranges, and the last byte of memory. -/
theorem witness_InvalidRule :
    (∀ b0 ∈ [0x00, 0x4f, 0x80, 0x8f, 0x92, 0x9f, 0xa2, 0xbf, 0xc1, (0xff : Byte)],
      b0 ≤ 0x4f ∨ (0x80 ≤ b0 ∧ b0 ≤ 0x8f) ∨ (0x92 ≤ b0 ∧ b0 ≤ 0x9f) ∨ (0xa2 ≤ b0 ∧ b0 ≤ 0xbf) ∨ 0xc1 ≤ b0) ∧
    (let s := { small [] with ipr := 7 }
     s.run = .running ∧ s.ipr.toNat < s.memSize ∧ s.mem.read s.ipr.toNat = 0x00) := by decide

theorem witness_same_register : ∃ dst src : Reg, dst = src := ⟨3, 3, rfl⟩

/-- PUSH completes at both ends of its range. -/
theorem witness_PushRule_completes : ∀ spr ∈ [4, (8 : Word)],
    let s := { small [] with spr := spr }
    4 ≤ s.spr.toNat ∧ s.spr.toNat ≤ s.memSize := by
  simp [small, State.memSize]

/-- PUSH completes at 0 in the largest memory. -/
theorem witness_PushRule_wraps : State.reset.spr = 0 ∧ State.reset.memSize = 2 ^ 32 :=
  ⟨rfl, by simp [State.memSize, State.reset]⟩

/-- PUSH stops just outside its range, and at 3 in the largest memory too. -/
theorem witness_PushRule_stops :
    (∀ spr ∈ [0, 3, (9 : Word)],
      let s := { small [] with spr := spr }
      ¬ ((4 ≤ s.spr.toNat ∧ s.spr.toNat ≤ s.memSize) ∨ (s.spr = 0 ∧ s.memSize = 2 ^ 32))) ∧
    (let s := { State.reset with spr := 3 }
     ¬ ((4 ≤ s.spr.toNat ∧ s.spr.toNat ≤ s.memSize) ∨ (s.spr = 0 ∧ s.memSize = 2 ^ 32))) := by
  simp [small, State.memSize, State.reset]

/-- POP at both sides of its bound, in a small and in the largest memory. -/
theorem witness_PopRule :
    (4 : Word).toNat + 4 ≤ (small []).memSize ∧ (small []).memSize < (5 : Word).toNat + 4 ∧
    (0xfffffffc : Word).toNat + 4 ≤ State.reset.memSize ∧ State.reset.memSize < (0xfffffffd : Word).toNat + 4 := by
  decide

/-- Operands on each side of the table's lines: sums 0, 2^32 - 1, 2^32 and 2^32 + 1. -/
theorem witness_FlagOutcomeTable :
    (0 : Word).toNat + (0 : Word).toNat = 0 ∧ (0xfffffffe : Word).toNat + (1 : Word).toNat < 2 ^ 32 ∧
    (0xffffffff : Word).toNat + (1 : Word).toNat = 2 ^ 32 ∧ 2 ^ 32 < (0xffffffff : Word).toNat + (2 : Word).toNat := by
  simp

/-- Both sides of the bound of a four-byte access, and an index inside it. -/
theorem witness_MemWriteStoresExactlyItsBytes :
    (4 : Word).toNat + [1, 2, 3, (4 : Byte)].length ≤ (small []).memSize ∧
    (small []).memSize < (5 : Word).toNat + [1, 2, 3, (4 : Byte)].length ∧
    3 < [1, 2, 3, (4 : Byte)].length ∧ 3 < (4 : Word).toNat := by decide

theorem witness_ReadsReturnBytesInOrder :
    (4 : Word).toNat + 4 ≤ (small []).memSize ∧ (small []).memSize < (5 : Word).toNat + 4 ∧ 3 < 4 := by decide

theorem witness_PushThenPop :
    exec (.push 5) (small [0x55]) = .next { small [0x55] with spr := 4, ipr := 1 } :=
  next_of_after _ _ (by decide)

theorem witness_PopThenPush :
    (small [0x66]).mem.wf ∧
    exec (.pop 6) { small [0x66] with spr := 4 } = .next { small [0x66] with spr := 8, ipr := 1 } :=
  ⟨by decide, next_of_after _ _ (by decide)⟩

/-- V-K13: the next fetch is of a byte just stored, over the PUSH itself. -/
theorem witness_StoresAreSeenByTheNextFetch :
    let s := { small [0, 0, 0x51] with ipr := 2, spr := 6 }.setGpr 1 0x90909090
    let t := { small [0, 0, 0x90, 0x90, 0x90, 0x90] with ipr := 3, spr := 2 }.setGpr 1 0x90909090
    s.At (.push 1) ∧ step s = .next t ∧ t.run = .running ∧ t.ipr = t.spr + BitVec.ofNat 32 1 ∧
      fetchInstr t = .ok .nop :=
  ⟨by decide, next_of_after _ _ (by decide), by decide, by decide, by decide⟩

/-- The same two bytes written in either order. -/
theorem witness_CanonicalMemoriesReadAlikeAreEqual :
    let m := (Memory.write [] 5 0x90).write 2 0x51
    let n := (Memory.write [] 2 0x51).write 5 0x90
    m.wf ∧ n.wf ∧ ∀ a, m.read a = n.read a :=
  ⟨by decide, by decide, fun a => congrArg (Memory.read · a) (by decide)⟩

theorem witness_StepRunsTheDecodedInstruction :
    let s := small [0xa1, 0x01]
    s.run = .running ∧ s.ipr.toNat + (Instr.add 0 1).size ≤ s.memSize ∧
      decBytes (s.mem.readBytes s.ipr.toNat (Instr.add 0 1).size) = .add 0 1 := by decide

/-- A stopped core; the end of memory; an instruction one byte too long; one that just fits. -/
theorem witness_StepFetchesDecodesExecutes :
    ((small []).setRun (.stopped ⟨.dataOutOfRange, 8⟩)).run = .stopped ⟨.dataOutOfRange, 8⟩ ∧
    (let s := { small [] with ipr := 8 }
     s.run = .running ∧ s.memSize ≤ s.ipr.toNat) ∧
    (let s := { small [0, 0, 0, 0, 0x91] with ipr := 4 }
     s.run = .running ∧ s.memSize < s.ipr.toNat + (dec (s.mem.read s.ipr.toNat) 0 0 0 0).size) ∧
    (let s := { small [0, 0, 0, 0x91] with ipr := 3 }
     s.run = .running ∧ s.ipr.toNat + (dec (s.mem.read s.ipr.toNat) 0 0 0 0).size ≤ s.memSize) := by decide

/-- A completed step of JMPABS, of Invalid and of another instruction. -/
theorem witness_NextIpr :
    ((small [0x91, 0x03]).At (.jmpabs 3) ∧ step (small [0x91, 0x03]) = .next { small [0x91, 0x03] with ipr := 3 }) ∧
    ((small [0xff]).At .invalid ∧ step (small [0xff]) = .next { small [0xff] with ipr := 1 }) ∧
    ((small [0x90]).At .nop ∧ step (small [0x90]) = .next { small [0x90] with ipr := 1 }) :=
  ⟨⟨by decide, next_of_after _ _ (by decide)⟩, ⟨by decide, next_of_after _ _ (by decide)⟩,
    ⟨by decide, next_of_after _ _ (by decide)⟩⟩

theorem witness_RaiseWritesNothing :
    step (small [0x60]) = .next ((small [0x60]).raise ⟨.dataOutOfRange, 8⟩) :=
  next_of_after _ _ (by decide)

theorem witness_StopCausesExactly :
    ({ small [] with ipr := 8 } : State).run = .running ∧ (small [0x60]).run = .running ∧
    step { small [] with ipr := 8 } = .next ({ small [] with ipr := 8 }.raise ⟨.fetchOutOfRange, 8⟩) ∧
    step ({ small [0x50] with spr := 3 }) = .next ({ small [0x50] with spr := 3 }.raise ⟨.dataOutOfRange, 0xffffffff⟩) :=
  ⟨by decide, by decide, next_of_after _ _ (by decide), next_of_after _ _ (by decide)⟩

theorem witness_RunningCoreAlwaysSteps : State.reset.run = .running := rfl

theorem witness_InvalidBytesTakeOneStepEach :
    let s := { small [0x90, 0xff] with ipr := 1 }
    s.run = .running ∧ s.ipr.toNat + 7 ≤ s.memSize ∧
      ∀ j, j < 7 → decBytes [s.mem.read (s.ipr.toNat + j)] = .invalid := by decide

theorem witness_OnlyXorAndAddWriteFlagr :
    let s := small [0xa0, 0x33]
    let t := { small [0xa0, 0x33] with flagr := 2, ipr := 2 }
    exec (.xor 3 3) s = .next t ∧ step s = .next t ∧ t.flagr ≠ s.flagr :=
  ⟨next_of_after _ _ (by decide), next_of_after _ _ (by decide), by decide⟩

theorem witness_RetrHoldsZero :
    runFor 1 (State.launch ⟨7, fun _ => 0x90, 8⟩) = .next { State.launch ⟨7, fun _ => 0x90, 8⟩ with ipr := 1 } ∧
    step (State.launch ⟨7, fun _ => 0x90, 8⟩) = .next { State.launch ⟨7, fun _ => 0x90, 8⟩ with ipr := 1 } :=
  ⟨next_of_after _ _ (by decide), next_of_after _ _ (by decide)⟩

theorem witness_SprMovesByFour :
    step (small [0x55]) = .next { small [0x55] with spr := 4, ipr := 1 } ∧
    decodedId (small [0x90]) ≠ some .push ∧ decodedId (small [0x90]) ≠ some .pop ∧
    step (small [0x90]) = .next { small [0x90] with ipr := 1 } :=
  ⟨next_of_after _ _ (by decide), by decide, by decide, next_of_after _ _ (by decide)⟩

/-- A stored byte and one beside it. -/
theorem witness_UnwrittenStateIsUnchanged :
    exec (.push 5) (small [0x55]) = .next { small [0x55] with spr := 4, ipr := 1 } ∧
    3 < (pushAddr (small [0x55])).toNat ∧ (Instr.push 5).writesGpr ≠ some 5 ∧
    exec .nop (small [0x90]) = .next { small [0x90] with ipr := 1 } :=
  ⟨next_of_after _ _ (by decide), by decide, by decide, next_of_after _ _ (by decide)⟩

/-- Two cores that differ in a general register and in the flags. -/
theorem witness_ControlFlowIgnoresData :
    let s := small [0xc0, 0x42]
    let s' := ({ small [0xc0, 0x42] with flagr := 3 }.setGpr 2 7)
    s'.ipr = s.ipr ∧ s'.spr = s.spr ∧ s'.mem = s.mem ∧ s'.lastAddr = s.lastAddr ∧ s.run = .running ∧
      s'.run = .running ∧ step s = .next { s with ipr := 2 } ∧ step s' = .next ({ s' with ipr := 2 }.setGpr 4 7) ∧
      decodedId s ≠ some .push :=
  ⟨by decide, by decide, by decide, by decide, by decide, by decide, next_of_after _ _ (by decide),
    next_of_after _ _ (by decide), by decide⟩

theorem witness_WarmResetKeepsMemory : (small [0x50, 0x90]).Inv := by decide

/-- Two MEM_INITs that differ only beyond MEM_SIZE. -/
theorem witness_LaunchDependsOnParametersAlone :
    let p : Config.Params := ⟨7, fun _ => 0x90, 8⟩
    let q : Config.Params := ⟨7, fun a => if a < 8 then 0x90 else 0xff, 8⟩
    p.lastAddr = q.lastAddr ∧ p.sprInit = q.sprInit ∧ (∀ a, a < p.memSize → p.memInit a = q.memInit a) :=
  ⟨rfl, rfl, fun _ h => (if_pos h).symm⟩

theorem witness_StepKeepsTheInvariant :
    (small [0xa0, 0x33]).Inv ∧ step (small [0xa0, 0x33]) = .next { small [0xa0, 0x33] with flagr := 2, ipr := 2 } :=
  ⟨by decide, next_of_after _ _ (by decide)⟩

theorem witness_PlacedWordRunsNext :
    State.reset.ipr.toNat + 5 ≤ State.reset.memSize ∧ decodeTableWord 16 0x42c0 = some (.mov 4 2) ∧
    (5 : Nat) ≥ State.reset.ipr.toNat + 5 := by decide

theorem witness_CanonicalTextAssemblesBack :
    ∀ i ∈ [Instr.nop, .sti 2 0xdd0000ff, .push 5, .mov 4 2], i.wellFormed = true := by decide

theorem witness_LabelIsTheByteOffset : ∀ i ∈ [Instr.nop, .sti 2 0xdd0000ff], i.wellFormed = true := by decide

/-- A statement with a tokenizer error, one with a parser error whatever follows it, and canonical statements around. -/
theorem witness_AssemblerErrorsReachTheirScope :
    assembleStatement "nop".toList = .error .unexpectedEndOfInput ∧
    AsmError.unexpectedEndOfInput ≠ .expectedEndOfInput ∧
    (∀ rest, assembleStatement (['s', 'u', 'b', ';'] ++ rest) = .ok (.error .unknownMnemonic, rest)) ∧
    ∀ i ∈ [Instr.nop, .push 5] ++ [.jmpabs 0x14], i.wellFormed = true :=
  ⟨by decide, by decide, fun _ => rfl, by decide⟩

end Sys2Proof.Tests
end

section
/-!
PROOFS. What the instructions write to `flagr` (10_state.md R27, R28).
-/

namespace Sys2Proof.Machine

/-! ## The values the ALU's conditions give -/

/-- Whatever the ALU's outputs, `flagr` is one of the four values of bits 1 and 0. -/
theorem flagsOf_values (o : AluOut) :
    flagsOf o = 0x0000 ∨ flagsOf o = 0x0001 ∨ flagsOf o = 0x0002 ∨ flagsOf o = 0x0003 := by
  obtain ⟨_, c, z⟩ := o
  cases c <;> cases z <;> simp [flagsOf, carryMask, zeroMask]

/-- Without a carry only Zero can be set. -/
theorem flagsOf_values_of_carry_false (o : AluOut) (h : o.carry = false) :
    flagsOf o = 0x0000 ∨ flagsOf o = 0x0002 := by
  cases hz : o.zero <;> simp [flagsOf, zeroMask, h, hz]

/-- The ALU's write replaces all 16 bits of `flagr`: the old value is lost. -/
theorem State.writeAlu_of_flagr (s : State) (f : FlagWord) (d : Reg) (o : AluOut) :
    { s with flagr := f }.writeAlu d o = s.writeAlu d o := rfl

/-! ## Execution -/

/-- Every instruction but XOR and ADD leaves `flagr`, completed or stopped. -/
theorem exec_keeps_flagr (i : Instr) (s t : State) (hxor : i.id ≠ .xor) (hadd : i.id ≠ .add)
    (h : exec i s = .next t) : t.flagr = s.flagr := by
  cases i with
  | nop => cases h; rfl
  | sti reg imm => cases h; rfl
  | jmpabs addr => cases h; rfl
  | push reg => rw [exec_push] at h; split at h <;> cases h <;> rfl
  | pop reg => rw [exec_pop] at h; split at h <;> cases h <;> rfl
  | mov dst src => cases h; rfl
  | xor dst src => exact absurd rfl hxor
  | add dst src => exact absurd rfl hadd
  | invalid => cases h; rfl

theorem exec_xor_flagr (i : Instr) (s t : State) (hi : i.id = .xor) (h : exec i s = .next t) :
    t.flagr = 0x0000 ∨ t.flagr = 0x0002 := by
  cases i <;> cases hi
  cases h
  exact flagsOf_values_of_carry_false _ (alu_xor_carry _ _)

theorem exec_add_flagr (i : Instr) (s t : State) (hi : i.id = .add) (h : exec i s = .next t) :
    t.flagr = 0x0000 ∨ t.flagr = 0x0001 ∨ t.flagr = 0x0002 ∨ t.flagr = 0x0003 := by
  cases i <;> cases hi
  cases h
  exact flagsOf_values _

/-- XOR and ADD give the same next state whatever `flagr` held. -/
theorem exec_of_flagr (i : Instr) (s : State) (f : FlagWord) (hi : i.id = .xor ∨ i.id = .add) :
    exec i { s with flagr := f } = exec i s := by
  rcases hi with hi | hi <;> cases i <;> cases hi
  · rw [exec_xor, exec_xor, State.writeAlu_of_flagr]; rfl
  · rw [exec_add, exec_add, State.writeAlu_of_flagr]; rfl

/-! ## The step -/

/-- A step that stops at its fetch changes no flag, so one that changes `flagr` decoded XOR or ADD. -/
theorem decodedId_of_flagr_ne (s t : State) (h : step s = .next t) (hne : t.flagr ≠ s.flagr) :
    decodedId s = some .xor ∨ decodedId s = some .add := by
  obtain ⟨-, ⟨why, -, rfl⟩ | ⟨i, hf, hi⟩⟩ := step_next s t h
  · exact absurd (State.raise_flagr s why) hne
  · rw [decodedId_of_fetch s i hf]
    by_contra hid
    obtain ⟨hxor, hadd⟩ := not_or.mp hid
    exact hne (exec_keeps_flagr i s t (fun e => hxor (congrArg some e)) (fun e => hadd (congrArg some e)) hi)

/-- Settles O31: one lemma for the frame, one for each instruction's values, one for the old flags, and the step's
inversion. -/
theorem onlyXorAndAddWriteFlagr : Obligations.OnlyXorAndAddWriteFlagr :=
  ⟨fun i s t h =>
    ⟨fun hxor hadd => exec_keeps_flagr i s t hxor hadd h,
      fun hi => exec_xor_flagr i s t hi h,
      fun hi => exec_add_flagr i s t hi h,
      fun hi f => (exec_of_flagr i s f hi).trans h⟩,
    decodedId_of_flagr_ne⟩

end Sys2Proof.Machine
end

section
/-!
PROOFS. The state a run starts from and its first fetch (10_state.md R35).
-/

namespace Sys2Proof.Machine

/-- Memory holds MEM_INIT after reset (00_scope.md R12). -/
theorem State.launch_read (p : Config.Params) (a : Nat) (h : a < p.memSize) :
    (State.launch p).mem.read a = p.memInit a := by
  rw [State.launch_mem, Memory.read_ofFn, if_pos h]

theorem State.launch_launched (p : Config.Params) : (State.launch p).Launched p :=
  ⟨State.launch_getGpr p, rfl, rfl, rfl, rfl, rfl, State.launch_read p, rfl⟩

/-- A one-byte fetch inside memory is the byte there (20_memory.md R60). -/
theorem fetchBytes_one (s : State) (a : Word) (h : a.toNat < s.memSize) :
    fetchBytes s a 1 = .ok [s.mem.read a.toNat] :=
  if_pos h

/-- Settles O37: a memory has at least one byte, so the first fetch is of `MEM[0]`. -/
theorem launchIsTheResetState : Obligations.LaunchIsTheResetState := by
  intro p
  have hpos : 0 < p.memSize := memSize_pos (State.launch p)
  refine ⟨State.launch_launched p, ?_⟩
  calc fetchBytes (State.launch p) (State.launch p).ipr 1
      = .ok [(State.launch p).mem.read 0] := fetchBytes_one (State.launch p) 0 hpos
    _ = .ok [p.memInit 0] := by rw [State.launch_read p 0 hpos]

end Sys2Proof.Machine
end

section
/-!
PROOFS. The load/store interface: MemWrite, MemRead and Fetch (20_memory.md R58 to R60), and stores seen by the next
fetch (R71).
-/

namespace Sys2Proof.Machine

/-! ## One write of several bytes -/

/-- A written address reads its byte of the list. -/
theorem Memory.read_writeBytes_inside (m : Memory) (a : Nat) (bs : List Byte) (k : Nat) (h : k < bs.length) :
    (m.writeBytes a bs).read (a + k) = bs.getD k 0 := by
  rw [Memory.read_writeBytes, if_pos (by omega), Nat.add_sub_cancel_left]

/-- An address below or above the written range reads as before. -/
theorem Memory.read_writeBytes_outside (m : Memory) (a : Nat) (bs : List Byte) (x : Nat)
    (h : x < a ∨ a + bs.length ≤ x) : (m.writeBytes a bs).read x = m.read x := by
  rw [Memory.read_writeBytes, if_neg (by omega)]

/-- Settles O18: the two branches of the bound check, and what each address reads after the write. -/
theorem memWriteStoresExactlyItsBytes : Obligations.MemWriteStoresExactlyItsBytes :=
  fun s a bs =>
    ⟨fun hout => if_neg (Nat.not_le.mpr hout),
      fun hin => ⟨s.mem.writeBytes a.toNat bs, if_pos hin,
        fun k hk => s.mem.read_writeBytes_inside a.toNat bs k hk,
        fun x hx => s.mem.read_writeBytes_outside a.toNat bs x hx⟩⟩

/-- Settles O19: MemRead and Fetch make one bound check, read the same bytes, and differ in the cause they raise. -/
theorem readsReturnBytesInOrder : Obligations.ReadsReturnBytesInOrder :=
  fun s a n =>
    ⟨fun hout => ⟨if_neg (Nat.not_le.mpr hout), if_neg (Nat.not_le.mpr hout)⟩,
      fun hin => ⟨s.mem.readBytes a.toNat n, if_pos hin, if_pos hin, s.mem.length_readBytes a.toNat n,
        fun k hk => s.mem.getD_readBytes a.toNat n k hk 0⟩⟩

/-! ## A completed PUSH -/

/-- The bytes of a word, lowest first (20_memory.md R53). -/
theorem getD_leBytes (v : Word) (k : Nat) (h : k < 4) : (leBytes v).getD k 0 = byteOf v k := by
  match k with
  | 0 | 1 | 2 | 3 => rfl
  | k + 4 => omega

/-- A PUSH that leaves the core running stored its word inside memory, at the new `spr` (43_stack.md R160). -/
theorem exec_push_completed (r : Reg) (s t : State) (h : exec (.push r) s = .next t) (ht : t.run = .running) :
    t.spr.toNat + 4 ≤ t.memSize ∧ t.mem = s.mem.writeBytes t.spr.toNat (leBytes (s.getGpr r)) := by
  rw [exec_push] at h
  split at h
  · next hin => cases h; exact ⟨hin, rfl⟩
  · cases h; cases ht

/-- The `k`-th address of a four-byte range inside memory does not wrap. -/
theorem toNat_add_of_inRange (s : State) (a : Word) (k : Nat) (hin : s.inRange a 4) (hk : k < 4) :
    (a + BitVec.ofNat 32 k).toNat = a.toNat + k := by
  have hsize := memSize_le s
  rw [BitVec.toNat_add, BitVec.toNat_ofNat, Nat.mod_eq_of_lt (by omega : k < 2 ^ 32), Nat.mod_eq_of_lt (by omega)]

/-- After a completed PUSH each of the four addresses from the new `spr` up lies inside memory and reads its byte of the
stored word. -/
theorem exec_push_stored (r : Reg) (s t : State) (h : exec (.push r) s = .next t) (ht : t.run = .running)
    (k : Nat) (hk : k < 4) :
    (t.spr + BitVec.ofNat 32 k).toNat < t.memSize ∧
      t.mem.read (t.spr + BitVec.ofNat 32 k).toNat = byteOf (s.getGpr r) k := by
  obtain ⟨hin, hmem⟩ := exec_push_completed r s t h ht
  rw [toNat_add_of_inRange t t.spr k hin hk]
  refine ⟨by omega, ?_⟩
  rw [hmem, Memory.read_writeBytes_inside _ _ _ _ hk, getD_leBytes _ _ hk]

/-- Settles O22: the step executes the PUSH it fetched, the state after reads the stored bytes, and a fetch, whole or of
one byte, reads that state's memory alone. -/
theorem storesAreSeenByTheNextFetch : Obligations.StoresAreSeenByTheNextFetch := by
  intro reg s t ⟨hrun, hfetch⟩ hstep ht
  have hexec : exec (.push reg) s = .next t := (step_at s (.push reg) hrun hfetch).symm.trans hstep
  refine ⟨hexec, fun k hk => ?_⟩
  obtain ⟨hin, hread⟩ := exec_push_stored reg s t hexec ht k hk
  refine ⟨?_, fun hipr i hi => ?_⟩
  · rw [fetchBytes_one t _ hin, hread]
  · rw [id_of_fetchInstr t i hi, hipr, hread]

end Sys2Proof.Machine
end

section
/-!
PROOFS. The decoder by its first byte: DEC's arms, the ISA table's rows and the table of ids (30_encoding.md R91 to
R93).
-/

namespace Sys2Proof

/-! ## Masks -/

/-- The rows that leave the low nibble open accept sixteen values each (30_encoding.md R92). -/
theorem and_f0_eq_iff : ∀ b : Byte,
    (b &&& 0xf0#8 = 0x50#8 ↔ 0x50 ≤ b ∧ b ≤ 0x5f) ∧ (b &&& 0xf0#8 = 0x60#8 ↔ 0x60 ≤ b ∧ b ≤ 0x6f) ∧
      (b &&& 0xf0#8 = 0x70#8 ↔ 0x70 ≤ b ∧ b ≤ 0x7f) := by
  decide

theorem and_ff (b : Byte) : b &&& 0xff#8 = b := BitVec.and_allOnes

/-- Bytes whose high nibbles differ are different. -/
theorem ne_of_and_f0 {b c v : Byte} (h : b &&& 0xf0#8 = v) (hc : c &&& 0xf0#8 ≠ v) : b ≠ c :=
  fun e => hc (e ▸ h)

/-! ## The arms of DEC -/

theorem dec_nop (b1 b2 b3 b4 : Byte) : dec 0x90#8 b1 b2 b3 b4 = .nop := rfl
theorem dec_jmpabs (b1 b2 b3 b4 : Byte) : dec 0x91#8 b1 b2 b3 b4 = .jmpabs (le32 b1 b2 b3 b4) := rfl
theorem dec_mov (b1 b2 b3 b4 : Byte) : dec 0xc0#8 b1 b2 b3 b4 = .mov (hiNibble b1) (loNibble b1) := rfl
theorem dec_xor (b1 b2 b3 b4 : Byte) : dec 0xa0#8 b1 b2 b3 b4 = .xor (hiNibble b1) (loNibble b1) := rfl
theorem dec_add (b1 b2 b3 b4 : Byte) : dec 0xa1#8 b1 b2 b3 b4 = .add (hiNibble b1) (loNibble b1) := rfl

theorem dec_sti {b0 : Byte} (h : b0 &&& 0xf0#8 = 0x70#8) (b1 b2 b3 b4 : Byte) :
    dec b0 b1 b2 b3 b4 = .sti (loNibble b0) (le32 b1 b2 b3 b4) := by
  have hnop : b0 ≠ 0x90#8 := ne_of_and_f0 h (by decide)
  simp [dec, hnop, h]

theorem dec_push {b0 : Byte} (h : b0 &&& 0xf0#8 = 0x50#8) (b1 b2 b3 b4 : Byte) :
    dec b0 b1 b2 b3 b4 = .push (loNibble b0) := by
  have hnop : b0 ≠ 0x90#8 := ne_of_and_f0 h (by decide)
  have hjmpabs : b0 ≠ 0x91#8 := ne_of_and_f0 h (by decide)
  simp [dec, hnop, hjmpabs, h]

theorem dec_pop {b0 : Byte} (h : b0 &&& 0xf0#8 = 0x60#8) (b1 b2 b3 b4 : Byte) :
    dec b0 b1 b2 b3 b4 = .pop (loNibble b0) := by
  have hnop : b0 ≠ 0x90#8 := ne_of_and_f0 h (by decide)
  have hjmpabs : b0 ≠ 0x91#8 := ne_of_and_f0 h (by decide)
  simp [dec, hnop, hjmpabs, h]

/-- Invalid is what no row of the ISA table accepts (30_encoding.md R93). -/
theorem dec_invalid {b0 : Byte} (h : ∀ row ∈ isaTable, ¬ row.accepts b0 = true) (b1 b2 b3 b4 : Byte) :
    dec b0 b1 b2 b3 b4 = .invalid := by
  simp only [isaTable, IsaRow.accepts, List.forall_mem_cons, beq_iff_eq, and_ff] at h
  obtain ⟨hnop, hsti, hjmpabs, hpush, hpop, hmov, hxor, hadd, -⟩ := h
  simp [dec, *]

/-! ## The ISA table -/

/-- A row that accepts a byte has the id DEC gives that byte. -/
theorem dec_id_of_accepts {b0 : Byte} {row : IsaRow} (hrow : row ∈ isaTable) (h : row.accepts b0 = true)
    (b1 b2 b3 b4 : Byte) : (dec b0 b1 b2 b3 b4).id = row.id := by
  simp only [isaTable, List.mem_cons, List.not_mem_nil, or_false] at hrow
  rcases hrow with rfl | rfl | rfl | rfl | rfl | rfl | rfl | rfl <;>
    simp only [IsaRow.accepts, beq_iff_eq, and_ff] at h
  · subst h; rfl
  · rw [dec_sti h]; rfl
  · subst h; rfl
  · rw [dec_push h]; rfl
  · rw [dec_pop h]; rfl
  · subst h; rfl
  · subst h; rfl
  · subst h; rfl

/-- An id fixes the length and the format its row of the ISA table gives (30_encoding.md R92). -/
theorem isaTable_length_format :
    ∀ row ∈ isaTable, row.id.length = row.length ∧ row.id.format = row.format := by
  decide

/-- Two rows that both accept a byte have opcodes that agree under both masks. -/
theorem opcode_and_mask_of_accepts {r q : IsaRow} {b : Byte} (hr : r.accepts b = true) (hq : q.accepts b = true) :
    r.opcode &&& q.mask = q.opcode &&& r.mask := by
  rw [IsaRow.accepts, beq_iff_eq] at hr hq
  rw [← hr, ← hq, BitVec.and_assoc, BitVec.and_assoc, BitVec.and_comm r.mask]

/-- No two opcodes of the ISA table agree under both masks. -/
theorem isaTable_opcodes_differ : isaTable.Pairwise (fun r q => r.opcode &&& q.mask ≠ q.opcode &&& r.mask) := by
  decide

/-- Settles O5: opcodes that differ under both masks accept no common byte, and a first match in any order of the table
is a row of the table that accepts the byte. -/
theorem isaTableRowsExclusive : Obligations.IsaTableRowsExclusive := by
  refine ⟨fun b0 => isaTable_opcodes_differ.imp fun hne ⟨hr, hq⟩ => hne (opcode_and_mask_of_accepts hr hq),
    fun b0 rest table hperm => ?_⟩
  split
  · next row hfind =>
    have hrow : row ∈ isaTable := hperm.mem_iff.mp (List.mem_of_find?_eq_some hfind)
    have haccepts : row.accepts b0 = true := (List.find?_eq_some_iff_append.mp hfind).1
    have hid : (decBytes (b0 :: rest)).id = row.id := dec_id_of_accepts hrow haccepts _ _ _ _
    obtain ⟨hlength, hformat⟩ := isaTable_length_format row hrow
    exact ⟨hid, (congrArg InstrId.length hid).trans hlength, (congrArg InstrId.format hid).trans hformat⟩
  · next hfind =>
    exact dec_invalid (fun row hrow => List.find?_eq_none.mp hfind row (hperm.mem_iff.mpr hrow)) _ _ _ _

/-! ## The table of ids -/

/-- The first byte fixes the id (30_encoding.md R92). -/
theorem decBytes_id_table (b0 : Byte) (rest : List Byte) :
    (decBytes (b0 :: rest)).id =
      if 0x50 ≤ b0 ∧ b0 ≤ 0x5f then .push
      else if 0x60 ≤ b0 ∧ b0 ≤ 0x6f then .pop
      else if 0x70 ≤ b0 ∧ b0 ≤ 0x7f then .sti
      else if b0 = 0x90 then .nop
      else if b0 = 0x91 then .jmpabs
      else if b0 = 0xa0 then .xor
      else if b0 = 0xa1 then .add
      else if b0 = 0xc0 then .mov
      else .invalid := by
  obtain ⟨hf5, hf6, hf7⟩ := and_f0_eq_iff b0
  simp only [decBytes, List.getD_cons_zero]
  split_ifs with hpush hpop hsti hnop hjmpabs hxor hadd hmov
  · rw [dec_push (hf5.mpr hpush)]; rfl
  · rw [dec_pop (hf6.mpr hpop)]; rfl
  · rw [dec_sti (hf7.mpr hsti)]; rfl
  · subst hnop; rfl
  · subst hjmpabs; rfl
  · subst hxor; rfl
  · subst hadd; rfl
  · subst hmov; rfl
  · rw [dec_invalid]
    · rfl
    · simp only [isaTable, IsaRow.accepts, List.forall_mem_cons, beq_iff_eq, and_ff, hf5, hf6, hf7]
      exact ⟨hnop, hsti, hjmpabs, hpush, hpop, hmov, hxor, hadd, nofun⟩

/-- Settles O3: format and length are functions of the id. -/
theorem firstByteFixesIdFormatLength : Obligations.FirstByteFixesIdFormatLength := by
  intro b0 rest
  rw [Machine.bundle_length, Instr.length, decBytes_id_table]
  split_ifs <;> rfl

theorem Instr.id_eq_invalid_iff (i : Instr) : i.id = .invalid ↔ i = .invalid := by
  cases i <;> simp [Instr.id]

theorem decBytes_eq_invalid_iff (b0 : Byte) (rest : List Byte) :
    decBytes (b0 :: rest) = .invalid ↔
      b0 ≤ 0x4f ∨ (0x80 ≤ b0 ∧ b0 ≤ 0x8f) ∨ (0x92 ≤ b0 ∧ b0 ≤ 0x9f) ∨ (0xa2 ≤ b0 ∧ b0 ≤ 0xbf) ∨ 0xc1 ≤ b0 := by
  rw [← Instr.id_eq_invalid_iff, decBytes_id_table]
  split_ifs
  case neg => exact iff_of_true rfl (by bv_omega)
  all_goals exact iff_of_false nofun (by bv_omega)

/-- Settles O4: the ranges are what the table of ids leaves over; the count evaluates DEC on each of the 256 bytes. -/
theorem unmatchedFirstBytesAreInvalid : Obligations.UnmatchedFirstBytesAreInvalid :=
  ⟨decBytes_eq_invalid_iff, rfl, rfl⟩

end Sys2Proof
end

section
/-!
PROOFS. Decode and encode are inverse to each other (30_encoding.md R99).
-/

namespace Sys2Proof

/-! ## Register fields -/

/-- A register is read back from the low nibble it was put into (30_encoding.md R86). -/
theorem loNibble_or : ∀ r : Reg,
    loNibble (0x70#8 ||| r.setWidth 8) = r ∧ loNibble (0x50#8 ||| r.setWidth 8) = r ∧
      loNibble (0x60#8 ||| r.setWidth 8) = r := by
  decide

/-- A byte is its high nibble with its low nibble put in. -/
theorem and_f0_or_loNibble : ∀ b : Byte, b &&& 0xf0#8 ||| (loNibble b).setWidth 8 = b := by
  decide

/-- A slot below 16 is the register field it stands for (30_encoding.md R87). -/
theorem setWidth_setWidth_of_lt {v : Word} (h : v.toNat < 16) : (v.setWidth 4).setWidth 32 = v := by
  apply BitVec.eq_of_toNat_eq
  rw [BitVec.toNat_setWidth, BitVec.toNat_setWidth]
  omega

/-! ## Decoding what was encoded -/

theorem ne_invalid_of_encode {i : Instr} {bs : List Byte} (h : encode i = some bs) : i ≠ .invalid := by
  rintro rfl
  cases h

theorem length_of_encode {i : Instr} {bs : List Byte} (h : encode i = some bs) : bs.length = i.length := by
  cases i <;> cases h <;> rfl

/-- DEC reads an encoding back, whatever follows it. -/
theorem decBytes_encode_append {i : Instr} {bs : List Byte} (h : encode i = some bs) (rest : List Byte) :
    decBytes (bs ++ rest) = i := by
  cases i with
  | nop => cases h; rfl
  | sti reg imm =>
    cases h
    obtain ⟨hmask, -, -⟩ := Laws.EncodedLength.accepts_reg reg
    obtain ⟨hreg, -, -⟩ := loNibble_or reg
    exact (dec_sti (beq_iff_eq.mp hmask) _ _ _ _).trans (congrArg₂ Instr.sti hreg (le32_byteOf imm))
  | jmpabs addr => cases h; exact (dec_jmpabs _ _ _ _).trans (congrArg Instr.jmpabs (le32_byteOf addr))
  | push reg =>
    cases h
    obtain ⟨-, hmask, -⟩ := Laws.EncodedLength.accepts_reg reg
    obtain ⟨-, hreg, -⟩ := loNibble_or reg
    exact (dec_push (beq_iff_eq.mp hmask) _ _ _ _).trans (congrArg Instr.push hreg)
  | pop reg =>
    cases h
    obtain ⟨-, -, hmask⟩ := Laws.EncodedLength.accepts_reg reg
    obtain ⟨-, -, hreg⟩ := loNibble_or reg
    exact (dec_pop (beq_iff_eq.mp hmask) _ _ _ _).trans (congrArg Instr.pop hreg)
  | mov dst src =>
    cases h
    obtain ⟨hdst, hsrc⟩ := nibbles_of_packed dst src
    exact (dec_mov _ _ _ _).trans (congrArg₂ Instr.mov hdst hsrc)
  | xor dst src =>
    cases h
    obtain ⟨hdst, hsrc⟩ := nibbles_of_packed dst src
    exact (dec_xor _ _ _ _).trans (congrArg₂ Instr.xor hdst hsrc)
  | add dst src =>
    cases h
    obtain ⟨hdst, hsrc⟩ := nibbles_of_packed dst src
    exact (dec_add _ _ _ _).trans (congrArg₂ Instr.add hdst hsrc)
  | invalid => cases h

/-- Everything `decode` can answer with success. -/
theorem decode_eq_ok_iff (bs : List Byte) (i : Instr) (rest : List Byte) :
    decode bs = .ok (i, rest) ↔ bs ≠ [] ∧ decBytes bs = i ∧ i.size ≤ bs.length ∧ rest = bs.drop i.size := by
  cases bs with
  | nil => simp [decode]
  | cons b bs =>
    simp only [decode]
    split
    · next hsize =>
      constructor
      · rintro ⟨⟩; exact ⟨nofun, rfl, hsize, rfl⟩
      · rintro ⟨-, rfl, -, rfl⟩; rfl
    · next hsize => exact iff_of_false nofun (fun ⟨_, hi, hle, _⟩ => hsize (hi ▸ hle))

theorem decode_encode_append {i : Instr} {bs : List Byte} (h : encode i = some bs) (rest : List Byte) :
    decode (bs ++ rest) = .ok (i, rest) := by
  have hsize : i.size = bs.length :=
    (Instr.size_eq_length i (ne_invalid_of_encode h)).trans (length_of_encode h).symm
  have hpos : 0 < (bs ++ rest).length := by
    have := Instr.size_cases i
    rw [List.length_append]; omega
  exact (decode_eq_ok_iff _ _ _).mpr
    ⟨List.ne_nil_of_length_pos hpos, decBytes_encode_append h rest, by simp [hsize], by simp [hsize]⟩

/-! ## Encoding what was decoded -/

/-- The bytes DEC took its instruction from are that instruction's encoding. -/
theorem encode_dec {b0 b1 b2 b3 b4 : Byte} (h : dec b0 b1 b2 b3 b4 ≠ .invalid) :
    encode (dec b0 b1 b2 b3 b4) = some ([b0, b1, b2, b3, b4].take (dec b0 b1 b2 b3 b4).length) := by
  have hb0 := and_f0_or_loNibble b0
  have hb1 := packed_of_nibbles b1
  unfold dec at h ⊢
  split_ifs at h ⊢ with hnop hsti hjmpabs hpush hpop hmov hxor hadd <;>
    simp only [encode, Instr.length, Instr.id, InstrId.length, leBytes_le32, hb1, List.take]
  · rw [hnop]
  · rw [← hsti, hb0]
  · rw [hjmpabs]
  · rw [← hpush, hb0]
  · rw [← hpop, hb0]
  · rw [hmov]
  · rw [hxor]
  · rw [hadd]
  · exact absurd rfl h

/-- The bytes DEC is given start with those of the string it is to decode. -/
theorem take_fetchWindow (bs : List Byte) (n : Nat) (hn : n ≤ Config.fetchWindow) (hbs : n ≤ bs.length) :
    [bs.getD 0 0, bs.getD 1 0, bs.getD 2 0, bs.getD 3 0, bs.getD 4 0].take n = bs.take n := by
  unfold Config.fetchWindow at hn
  refine List.ext_getElem (by simp only [List.length_take, List.length_cons, List.length_nil]; omega) fun k _ hk => ?_
  have hkn : k < n := lt_of_lt_of_le hk (List.length_take_le n bs)
  rw [List.getElem_take, List.getElem_take]
  match k, (by omega : k < 5) with
  | 0, _ | 1, _ | 2, _ | 3, _ | 4, _ => exact List.getD_eq_getElem _ _ _

theorem Instr.length_le_fetchWindow (i : Instr) : i.length ≤ Config.fetchWindow := by
  rw [Instr.length]
  cases i.id <;> decide

theorem encode_decBytes {bs : List Byte} (h : decBytes bs ≠ .invalid) (hbs : (decBytes bs).length ≤ bs.length) :
    encode (decBytes bs) = some (bs.take (decBytes bs).length) :=
  (encode_dec h).trans (congrArg some (take_fetchWindow bs _ (Instr.length_le_fetchWindow _) hbs))

/-! ## Bundles -/

/-- A well-formed bundle is the one of the instruction it stands for (30_encoding.md R99). -/
theorem Bundle.bundle_instr {b : Bundle} (h : b.wellFormed = true) : b.instr.bundle = b := by
  obtain ⟨id, op0, op1, length⟩ := b
  simp only [Bundle.wellFormed, Bool.and_eq_true] at h
  obtain ⟨⟨⟨hid, hregs⟩, hunused⟩, hlength⟩ := h
  cases id
  case invalid => cases hid
  all_goals
    simp only [Bundle.regsInRange, Bundle.unusedZero, Bundle.lengthRight, Bool.and_eq_true, decide_eq_true_eq,
      beq_iff_eq] at hregs hunused hlength
    simp [Bundle.instr, Instr.bundle, Instr.length, Instr.id, InstrId.length, setWidth_setWidth_of_lt, *]

theorem Bundle.instr_wellFormed {b : Bundle} (h : b.wellFormed = true) : b.instr.wellFormed = true := by
  obtain ⟨id, op0, op1, length⟩ := b
  cases id
  case invalid => cases h
  all_goals rfl

/-! ## The round trip -/

theorem Instr.exists_encode {i : Instr} (h : i.wellFormed = true) : ∃ bs, encode i = some bs :=
  Option.isSome_iff_exists.mp ((encode_isSome i).trans h)

theorem Instr.length_eq_zero_iff (i : Instr) : i.length = 0 ↔ i = .invalid := by
  cases i <;> simp [Instr.length, Instr.id, InstrId.length]

/-- Settles O1: a bundle is taken to the instruction it stands for; `decode_encode_append` is one direction of the round
trip and `encode_decBytes` the other. -/
theorem decodeInvertsEncode : Obligations.DecodeInvertsEncode := by
  refine ⟨fun b hb => ?_, fun i hi => ?_, fun bs i rest h hi => ?_, Instr.length_eq_zero_iff, rfl⟩
  · have hbundle : b.instr.bundle = b := Bundle.bundle_instr hb
    obtain ⟨bs, hbs⟩ := Instr.exists_encode (Bundle.instr_wellFormed hb)
    have hlength : b.instr.length = b.length :=
      (Machine.bundle_length b.instr).symm.trans (congrArg Bundle.length hbundle)
    refine ⟨bs, hbs, (length_of_encode hbs).trans hlength, fun rest => ⟨decode_encode_append hbs rest, ?_⟩⟩
    rw [decBytes_encode_append hbs, hbundle]
  · obtain ⟨bs, hbs⟩ := Instr.exists_encode hi
    exact ⟨bs, hbs, length_of_encode hbs, decode_encode_append hbs⟩
  · obtain ⟨-, rfl, hsize, hrest⟩ := (decode_eq_ok_iff bs i rest).mp h
    rw [Instr.size_eq_length _ hi] at hsize hrest
    exact ⟨encode_decBytes hi hsize, hrest⟩

end Sys2Proof
end

section
/-!
PROOFS. DEC's bundle, the step and the next `ipr` (40_decoder_and_sequencer.md R111, R118, R120).
-/

namespace Sys2Proof

/-! ## The bundle DEC delivers -/

/-- Settles O2: each arm of DEC delivers its instruction's bundle, and no row of the ISA table accepts a byte of the
last arm. -/
theorem decIsTheDecodeFunction : Obligations.DecIsTheDecodeFunction := by
  intro b0 b1 b2 b3 b4
  split_ifs with hnop hsti hjmpabs hpush hpop hmov hxor hadd
  · subst hnop; rfl
  · rw [dec_sti hsti]; rfl
  · subst hjmpabs; rfl
  · rw [dec_push hpush]; rfl
  · rw [dec_pop hpop]; rfl
  · subst hmov; rfl
  · subst hxor; rfl
  · subst hadd; rfl
  · have hrows : ∀ row ∈ isaTable, ¬ row.accepts b0 = true := by
      simp only [isaTable, IsaRow.accepts, List.forall_mem_cons, beq_iff_eq, and_ff]
      exact ⟨hnop, hsti, hjmpabs, hpush, hpop, hmov, hxor, hadd, nofun⟩
    rw [dec_invalid hrows]; rfl

/-! ## The next `ipr` of an instruction -/

/-- The `ipr` an instruction at address `a` completes with (R120): its operand for JMPABS, and else `a` plus the bytes
the step consumed. -/
def Instr.nextIpr (a : Word) : Instr → Word
  | .jmpabs addr => addr
  | i => a + BitVec.ofNat 32 i.size

@[simp] theorem Instr.nextIpr_jmpabs (a addr : Word) : (Instr.jmpabs addr).nextIpr a = addr := rfl

theorem Instr.nextIpr_of_ne_jmpabs {i : Instr} (h : ∀ addr, i ≠ .jmpabs addr) (a : Word) :
    i.nextIpr a = a + BitVec.ofNat 32 i.size := by
  cases i with
  | jmpabs addr => exact absurd rfl (h addr)
  | _ => rfl

/-- Without a jump the next `ipr` is the sum modulo 2^32. -/
theorem Instr.toNat_nextIpr_of_ne_jmpabs {i : Instr} (h : ∀ addr, i ≠ .jmpabs addr) (a : Word) :
    (i.nextIpr a).toNat = (a.toNat + i.size) % 2 ^ 32 := by
  rw [Instr.nextIpr_of_ne_jmpabs h, BitVec.toNat_add, BitVec.toNat_ofNat, Nat.add_mod_mod]

end Sys2Proof

namespace Sys2Proof.Machine

/-! ## Execution -/

/-- An instruction that leaves the core running wrote its next `ipr`. -/
theorem exec_ipr_of_running {i : Instr} {s t : State} (h : exec i s = .next t) (ht : t.run = .running) :
    t.ipr = i.nextIpr s.ipr := by
  cases i with
  | nop => cases h; rfl
  | sti reg imm => cases h; rfl
  | jmpabs addr => cases h; rfl
  | push reg =>
    rw [exec_push] at h
    split at h
    · cases h; rfl
    · cases h; cases ht
  | pop reg =>
    rw [exec_pop] at h
    split at h
    · cases h; rfl
    · cases h; cases ht
  | mov dst src => cases h; rfl
  | xor dst src => cases h; rfl
  | add dst src => cases h; rfl
  | invalid => cases h; rfl

/-! ## The step -/

/-- The bytes fetched for a first byte decode to an instruction that consumes just those bytes. -/
theorem size_decBytes_readBytes (m : Memory) (a : Nat) :
    (decBytes (m.readBytes a (decBytes [m.read a]).size)).size = (decBytes [m.read a]).size := by
  obtain ⟨bs, hbs⟩ := readBytes_size m a
  rw [hbs, decBytes_size]

theorem step_of_fetch_outside {s : State} (hrun : s.run = .running)
    (hout : s.memSize < s.ipr.toNat + (decBytes [s.mem.read s.ipr.toNat]).size) :
    step s = .next (s.raise ⟨.fetchOutOfRange, s.ipr⟩) := by
  rw [step_running s hrun, fetchInstr_eq, if_neg (Nat.not_le.mpr hout)]

theorem step_of_fetch_inside {s : State} (hrun : s.run = .running)
    (hin : s.ipr.toNat + (decBytes [s.mem.read s.ipr.toNat]).size ≤ s.memSize) :
    step s = exec (decBytes (s.mem.readBytes s.ipr.toNat (decBytes [s.mem.read s.ipr.toNat]).size)) s :=
  step_at s _ hrun ((fetchInstr_eq s).trans (if_pos hin))

/-- Settles O25: an instruction has at least one byte, so the two stops are one check of the whole instruction, and what
is executed has the size the first byte gave. -/
theorem stepFetchesDecodesExecutes : Obligations.StepFetchesDecodesExecutes := by
  intro s a n
  refine ⟨step_stopped s, fun hrun => ⟨fun hend => ?_, step_of_fetch_outside hrun, fun hin => ?_⟩⟩
  · have hsize : n = 1 ∨ n = 2 ∨ n = 5 := Instr.size_cases _
    exact step_of_fetch_outside hrun (show s.memSize < a.toNat + n by omega)
  · have hstep : step s = exec (decBytes (s.mem.readBytes a.toNat n)) s := step_of_fetch_inside hrun hin
    refine ⟨hstep, fun t ht htrun => ?_⟩
    have hipr : t.ipr = (decBytes (s.mem.readBytes a.toNat n)).nextIpr a :=
      exec_ipr_of_running (hstep.symm.trans ht) htrun
    have hsize : (decBytes (s.mem.readBytes a.toNat n)).size = n := size_decBytes_readBytes s.mem a.toNat
    split
    · next addr hi => rw [hipr, hi, Instr.nextIpr_jmpabs]
    · next hne => rw [hipr, Instr.nextIpr_of_ne_jmpabs hne, hsize]

/-- Settles O26: the step executes what it fetched, and each constructor but JMPABS consumes its length, Invalid one
byte. -/
theorem nextIpr : Obligations.NextIpr := by
  intro s t i ⟨hrun, hfetch⟩ hstep ht
  have hexec : exec i s = .next t := (step_at s i hrun hfetch).symm.trans hstep
  rw [exec_ipr_of_running hexec ht]
  cases i with
  | jmpabs addr => rfl
  | _ => exact Instr.toNat_nextIpr_of_ne_jmpabs (by nofun) s.ipr

end Sys2Proof.Machine
end

section
/-!
PROOFS. The control instructions: NOP (41_control.md R140), JMPABS (R142) and Invalid (R144), and the one stop of an
instruction's fetch.
-/

namespace Sys2Proof.Machine

/-! ## The stop of a fetch -/

/-- A running core stops at its fetch where the instruction its first byte selects does not fit (60_exceptions.md R213):
outside memory no byte need be read, since every instruction has at least one. -/
theorem stopsWhenCut_size (b0 : Byte) : StopsWhenCut b0 (decBytes [b0]).size := by
  intro s hrun hb0 hcut
  apply step_of_fetch_outside hrun
  by_cases hin : s.ipr.toNat < s.memSize
  · rwa [hb0 hin]
  · have hsize := Instr.size_cases (decBytes [s.mem.read s.ipr.toNat])
    omega

/-! ## NOP -/

/-- Settles O8: one byte selects NOP, and its execution is the advance by that byte. -/
theorem nopRule : Obligations.NopRule :=
  ⟨rfl, rfl, rfl, stopsWhenCut_size 0x90, exec_nop⟩

/-! ## JMPABS -/

/-- The text of a mnemonic and one operand, piece by piece (48_assembly_syntax.md R196). -/
theorem oneOperandText_eq_append (id : InstrId) (a : Text) :
    oneOperandText id a = (id.mnemonic ++ [' ']) ++ a ++ [';'] := by
  rw [oneOperandText, List.append_assoc, List.append_assoc, List.singleton_append]

/-- A jump to where no whole instruction fits is stopped by the fetch of the step after it, which records the target. -/
theorem step_at_target_outside {s : State} {addr : Word} (hrun : s.run = .running)
    (hout : s.memSize < addr.toNat + (decBytes [s.mem.read addr.toNat]).size) :
    step (s.setIpr addr) = .next ((s.setIpr addr).raise ⟨.fetchOutOfRange, addr⟩) :=
  step_of_fetch_outside (s := s.setIpr addr) hrun hout

/-- Settles O9: the execution is the write of `ipr`, so a bad target is met by the next fetch alone. -/
theorem jmpabsRule : Obligations.JmpabsRule :=
  fun addr =>
    ⟨rfl, rfl, oneOperandText_eq_append .jmpabs (immediateText addr), stopsWhenCut_size 0x91,
      fun s => ⟨exec_jmpabs addr s, step_at_target_outside⟩⟩

/-! ## Invalid -/

/-- A first byte that decodes to Invalid, inside memory, is a whole instruction of one byte. -/
theorem fetchInstr_invalid {s : State} (hin : s.ipr.toNat < s.memSize)
    (hinvalid : decBytes [s.mem.read s.ipr.toNat] = .invalid) : fetchInstr s = .ok .invalid := by
  have hsize : (decBytes [s.mem.read s.ipr.toNat]).size = 1 := congrArg Instr.size hinvalid
  rw [fetchInstr_eq, hsize, if_pos (show s.ipr.toNat + 1 ≤ s.memSize from hin)]
  exact congrArg Except.ok hinvalid

/-- Settles O10: the five ranges are the bytes that decode to Invalid, whose one byte is fetched wherever it lies in
memory. -/
theorem invalidRule : Obligations.InvalidRule := by
  refine ⟨rfl, rfl, rfl, exec_invalid, fun b0 hrange => ?_⟩
  have hinvalid : decBytes [b0] = .invalid := (decBytes_eq_invalid_iff b0 []).mpr hrange
  have hsize : (decBytes [b0]).size = 1 := congrArg Instr.size hinvalid
  refine ⟨hsize ▸ stopsWhenCut_size b0, fun s hrun hin hread => ?_⟩
  have hfetch : fetchInstr s = .ok .invalid := fetchInstr_invalid hin (hread ▸ hinvalid)
  exact ⟨(step_at s .invalid hrun hfetch).trans (exec_invalid s), decodedId_of_fetch s .invalid hfetch⟩

end Sys2Proof.Machine
end

section
/-!
PROOFS. The register moves: STI (42_register_moves.md R150) and MOV (R152).
-/

namespace Sys2Proof.Machine

/-- The text of a mnemonic and two operands, piece by piece (48_assembly_syntax.md R196). -/
theorem twoOperandText_eq_append (id : InstrId) (a b : Text) :
    twoOperandText id a b = (id.mnemonic ++ [' ']) ++ a ++ [',', ' '] ++ b ++ [';'] := by
  simp only [twoOperandText, List.append_assoc, List.cons_append, List.nil_append]

/-! ## STI -/

/-- The first byte of an STI, whatever its register, selects five bytes (30_encoding.md R92). -/
theorem size_decBytes_sti (reg : Reg) : (decBytes [0x70#8 ||| reg.setWidth 8]).size = 5 := by
  obtain ⟨hmask, -, -⟩ := Laws.EncodedLength.accepts_reg reg
  exact congrArg Instr.size (dec_sti (beq_iff_eq.mp hmask) _ _ _ _)

/-- Settles O11: the execution is one register write and the advance by five bytes, so a register reads as the register
file says and every other field is as it was. -/
theorem stiRule : Obligations.StiRule := by
  intro reg imm
  refine ⟨rfl, rfl, twoOperandText_eq_append .sti (registerText reg) (immediateText imm),
    size_decBytes_sti reg ▸ stopsWhenCut_size (0x70 ||| reg.setWidth 8), fun s => ?_⟩
  exact ⟨(s.setGpr reg imm).advance 5, exec_sti reg imm s, s.getGpr_setGpr reg imm,
    rfl, rfl, rfl, rfl, rfl, rfl, fun _ => rfl⟩

/-! ## MOV -/

/-- Settles O12: the execution is the write of the old source and the advance by two bytes; with `dst = src` the write
leaves the register file as it was. -/
theorem movRule : Obligations.MovRule := by
  intro dst src
  refine ⟨rfl, rfl, twoOperandText_eq_append .mov (registerText dst) (registerText src), stopsWhenCut_size 0xc0,
    fun s => ?_⟩
  refine ⟨(s.setGpr dst (s.getGpr src)).advance 2, exec_mov dst src s, s.getGpr_setGpr dst (s.getGpr src),
    rfl, rfl, rfl, rfl, rfl, rfl, fun _ => rfl, ?_⟩
  rintro rfl
  exact congrArg (State.advance · 2) (s.setGpr_getGpr dst)

end Sys2Proof.Machine
end

section
/-!
PROOFS. The stack: PUSH (43_stack.md R160) and POP (R163).
-/

namespace Sys2Proof.Machine

/-! ## PUSH -/

/-- The first byte of a PUSH, whatever its register, selects one byte (30_encoding.md R92). -/
theorem size_decBytes_push (reg : Reg) : (decBytes [0x50#8 ||| reg.setWidth 8]).size = 1 := by
  obtain ⟨-, hmask, -⟩ := Laws.EncodedLength.accepts_reg reg
  exact congrArg Instr.size (dec_push (beq_iff_eq.mp hmask) _ _ _ _)

/-- The decrement does not wrap from 4 up. -/
theorem toNat_pushAddr_of_le {s : State} (h : 4 ≤ s.spr.toNat) : (pushAddr s).toNat = s.spr.toNat - 4 :=
  BitVec.toNat_sub_of_le (BitVec.le_def.mpr h)

/-- The decrement wraps below 4, to an address in the last four bytes a 32-bit address can name. -/
theorem toNat_pushAddr_of_lt {s : State} (h : s.spr.toNat < 4) : (pushAddr s).toNat = 2 ^ 32 + s.spr.toNat - 4 := by
  unfold pushAddr
  bv_omega

/-- Where PUSH's access fits in memory, in terms of `spr` (R160): below 4 only a wrap from 0 fits, and only in the
largest memory. -/
theorem inRange_pushAddr_iff (s : State) :
    s.inRange (pushAddr s) 4 ↔
      (4 ≤ s.spr.toNat ∧ s.spr.toNat ≤ s.memSize) ∨ (s.spr = 0 ∧ s.memSize = 2 ^ 32) := by
  have hsize := memSize_le s
  have hzero : s.spr = 0 ↔ s.spr.toNat = 0 := BitVec.toNat_eq
  rw [State.inRange, hzero]
  by_cases hwrap : s.spr.toNat < 4
  · rw [toNat_pushAddr_of_lt hwrap]; omega
  · rw [toNat_pushAddr_of_le (Nat.not_lt.mp hwrap)]; omega

/-- The memory after a word is stored at an address (20_memory.md R53) holds the word's bytes from there up. -/
theorem Memory.read_writeBytes_leBytes (m : Memory) (a : Nat) (v : Word) (k : Nat) (hk : k < 4) :
    (m.writeBytes a (leBytes v)).read (a + k) = byteOf v k := by
  rw [Memory.read_writeBytes_inside m a (leBytes v) k hk, getD_leBytes v k hk]

/-- Settles O15: the range of R160 is the one where the access fits, and the two branches of PUSH are the store of the
word's bytes and the stop. -/
theorem pushRule : Obligations.PushRule := by
  intro reg
  refine ⟨rfl, rfl, oneOperandText_eq_append .push (registerText reg),
    size_decBytes_push reg ▸ stopsWhenCut_size (0x50 ||| reg.setWidth 8), fun s => ?_⟩
  rw [← inRange_pushAddr_iff, exec_push]
  refine ⟨fun hin => ?_, fun hout => ⟨Nat.not_le.mp hout, if_neg hout⟩⟩
  have hbyte := s.mem.read_writeBytes_leBytes (pushAddr s).toNat (s.getGpr reg)
  exact ⟨_, if_pos hin, rfl, rfl, fun _ => rfl, hbyte 0 (by decide), hbyte 1 (by decide), hbyte 2 (by decide),
    hbyte 3 (by decide), fun a ha => s.mem.read_writeBytes_outside (pushAddr s).toNat _ a ha, rfl, rfl, rfl, rfl⟩

/-! ## POP -/

/-- The first byte of a POP, whatever its register, selects one byte (30_encoding.md R92). -/
theorem size_decBytes_pop (reg : Reg) : (decBytes [0x60#8 ||| reg.setWidth 8]).size = 1 := by
  obtain ⟨-, -, hmask⟩ := Laws.EncodedLength.accepts_reg reg
  exact congrArg Instr.size (dec_pop (beq_iff_eq.mp hmask) _ _ _ _)

/-- The loaded word is its four bytes side by side, the lowest address least significant (20_memory.md R54). -/
theorem loadWord_eq_append (m : Memory) (a : Nat) :
    loadWord m a = m.read (a + 3) ++ m.read (a + 2) ++ m.read (a + 1) ++ m.read a :=
  le32_eq_append _ _ _ _

/-- Settles O16: the two branches of POP are the register write of the loaded word with the increment, and the stop. -/
theorem popRule : Obligations.PopRule := by
  intro reg
  refine ⟨rfl, rfl, oneOperandText_eq_append .pop (registerText reg),
    size_decBytes_pop reg ▸ stopsWhenCut_size (0x60 ||| reg.setWidth 8), fun s => ?_⟩
  rw [exec_pop, loadWord_eq_append]
  refine ⟨fun hin => ?_, fun hout => if_neg (Nat.not_le.mpr hout)⟩
  exact ⟨_, if_pos hin, (s.setSpr (s.spr + 4)).getGpr_setGpr reg _, BitVec.toNat_add s.spr 4,
    rfl, rfl, rfl, rfl, rfl, fun _ => rfl⟩

end Sys2Proof.Machine
end

section
/-!
PROOFS. The ALU's instructions: XOR (44_alu.md R170) and ADD (R172).
-/

namespace Sys2Proof.Machine

/-! ## The flags after the ALU's write -/

theorem State.writeAlu_carry (s : State) (d : Reg) (o : AluOut) : (s.writeAlu d o).carry = o.carry := by
  obtain ⟨hcarry, -, -⟩ := flagsOf_bits o
  exact hcarry

theorem State.writeAlu_zero (s : State) (d : Reg) (o : AluOut) : (s.writeAlu d o).zero = o.zero := by
  obtain ⟨-, hzero, -⟩ := flagsOf_bits o
  exact hzero

/-- Zero speaks of the 32-bit value the destination then holds (44_alu.md R172). -/
theorem State.writeAlu_zero_iff (s : State) (d : Reg) (f : AluFn) (a b : Word) :
    (s.writeAlu d (alu f a b)).zero = true ↔ (s.writeAlu d (alu f a b)).getGpr d = 0 := by
  rw [State.writeAlu_zero, State.writeAlu_getGpr, if_pos rfl, alu_zero, beq_iff_eq]

/-! ## XOR -/

/-- All 16 bits XOR writes: its result is 0 exactly when its operands are equal. -/
theorem flagsOf_alu_xor (a b : Word) : flagsOf (alu .xor a b) = if a = b then 0x0002 else 0x0000 := by
  have hzero : (alu .xor a b).zero = true ↔ a = b := by
    rw [alu_zero, alu_xor_result, beq_iff_eq]
    exact BitVec.xor_eq_zero_iff
  simp only [flagsOf, alu_xor_carry, hzero, zeroMask, Bool.false_eq_true, if_false]
  exact BitVec.zero_or

/-- Settles O13: the execution is the ALU's write and the advance by two bytes, and the flags are those of equal or
unequal operands. -/
theorem xorRule : Obligations.XorRule := by
  intro dst src
  refine ⟨rfl, rfl, twoOperandText_eq_append .xor (registerText dst) (registerText src), stopsWhenCut_size 0xa0,
    fun s => ?_⟩
  have hread := s.writeAlu_getGpr dst (alu .xor (s.getGpr dst) (s.getGpr src))
  have hflags := flagsOf_alu_xor (s.getGpr dst) (s.getGpr src)
  refine ⟨_, exec_xor dst src s, hread, hflags, s.writeAlu_carry dst _, s.writeAlu_zero_iff dst .xor _ _,
    rfl, rfl, rfl, rfl, rfl, fun _ => rfl, ?_⟩
  rintro rfl
  exact ⟨(hread dst).trans ((if_pos rfl).trans BitVec.xor_self), hflags.trans (if_pos rfl)⟩

/-! ## ADD -/

/-- A word added to itself is shifted left by one bit. -/
theorem word_add_self (a : Word) : a + a = a <<< 1 := by
  rw [BitVec.shiftLeft_eq_mul_twoPow, BitVec.mul_comm]
  exact BitVec.two_mul.symm

/-- The carry of a word added to itself is its top bit. -/
theorem alu_add_self_carry (a : Word) : (alu .add a a).carry = a.getLsbD 31 := by
  have htop : a.getLsbD 31 = decide (2 ^ 31 ≤ a.toNat) := BitVec.getLsbD_succ_last a
  rw [alu_add_carry, htop, decide_eq_decide]
  omega

/-- Settles O14: the execution is the ALU's write of the 33-bit sum and the advance by two bytes; with `dst = src` the
sum is a left shift, whose lost bit is Carry. -/
theorem addRule : Obligations.AddRule := by
  intro dst src
  refine ⟨rfl, rfl, twoOperandText_eq_append .add (registerText dst) (registerText src), stopsWhenCut_size 0xa1,
    fun s => ?_⟩
  have hread := s.writeAlu_getGpr dst (alu .add (s.getGpr dst) (s.getGpr src))
  have hcarry := s.writeAlu_carry dst (alu .add (s.getGpr dst) (s.getGpr src))
  obtain ⟨-, -, hother⟩ := flagsOf_bits (alu .add (s.getGpr dst) (s.getGpr src))
  rw [alu_add_result] at hread
  refine ⟨_, exec_add dst src s, fun q => ?_, ?_, s.writeAlu_zero_iff dst .add _ _, hother,
    rfl, rfl, rfl, rfl, rfl, fun _ => rfl, ?_⟩
  · rw [State.advance_getGpr, hread q, apply_ite BitVec.toNat, BitVec.toNat_add]
  · exact (Bool.eq_iff_iff.mp (hcarry.trans (alu_add_carry _ _))).trans decide_eq_true_iff
  · rintro rfl
    exact ⟨(hread dst).trans ((if_pos rfl).trans (word_add_self _)), hcarry.trans (alu_add_self_carry _)⟩

end Sys2Proof.Machine
end

section
/-!
PROOFS. Canonical texts and the assembler: what an instruction renders as, and the round trip from its text back to its
bytes (48_assembly_syntax.md R196).
-/

namespace Sys2Proof.Machine

/-! ## Rendered digits are the library's digits -/

theorem digitChar_eq_natDigitChar {d : Nat} (h : d < 16) : digitChar d = Nat.digitChar d :=
  (show ∀ d : Fin 16, digitChar d = Nat.digitChar d by decide) ⟨d, h⟩

/-- A number below the base renders as its one digit. -/
theorem renderDigits_of_lt_base {base n : Nat} (h2 : base ≤ 16) (h : n < base) (fuel : Nat) (acc : Text) :
    renderDigits base (fuel + 1) n acc = Nat.toDigits base n ++ acc := by
  rw [renderDigits, if_pos (Nat.div_eq_of_lt h), Nat.mod_eq_of_lt h, digitChar_eq_natDigitChar (h.trans_le h2),
    Nat.toDigits_of_lt_base h, List.singleton_append]

/-- A larger number renders as its quotient does, before its last digit. -/
theorem renderDigits_of_base_le {base n : Nat} (hb : 0 < base) (h : base ≤ n) (fuel : Nat) (acc : Text) :
    renderDigits base (fuel + 1) n acc = renderDigits base fuel (n / base) (digitChar (n % base) :: acc) := by
  rw [renderDigits, if_neg (Nat.div_pos h hb).ne']

/-- With fuel for all its digits, a number renders as `Nat.toDigits` gives it: no leading zeros, and 0 as one digit. -/
theorem renderDigits_eq_toDigits_append {base : Nat} (h1 : 1 < base) (h2 : base ≤ 16) (fuel n : Nat) (acc : Text)
    (hn : n < base ^ (fuel + 1)) : renderDigits base (fuel + 1) n acc = Nat.toDigits base n ++ acc := by
  induction fuel generalizing n acc with
  | zero => exact renderDigits_of_lt_base h2 (by simpa using hn) 0 acc
  | succ fuel ih =>
    rcases Nat.lt_or_ge n base with hlt | hle
    · exact renderDigits_of_lt_base h2 hlt (fuel + 1) acc
    · have hb : 0 < base := by omega
      have hquot : n / base < base ^ (fuel + 1) := Nat.div_lt_of_lt_mul (by rwa [← Nat.pow_succ'])
      have hlast : digitChar (n % base) = Nat.digitChar (n % base) :=
        digitChar_eq_natDigitChar ((Nat.mod_lt n hb).trans_le h2)
      rw [renderDigits_of_base_le hb hle, ih _ _ hquot, hlast, Nat.toDigits_of_base_le h1 hle, List.append_assoc,
        List.singleton_append]

/-- A register's index is in decimal. -/
theorem registerText_eq_toDigits (r : Reg) : registerText r = "%gpr".toList ++ Nat.toDigits 10 r.toNat := by
  have hr : r.toNat < 10 ^ (1 + 1) := by have := r.isLt; omega
  rw [registerText, renderDigits_eq_toDigits_append (by decide) (by decide) 1 _ [] hr, List.append_nil]
  rfl

/-- An immediate is in lowercase hexadecimal, unpadded. -/
theorem immediateText_eq_toDigits (v : Word) : immediateText v = "$0x".toList ++ Nat.toDigits 16 v.toNat := by
  have hv : v.toNat < 16 ^ (7 + 1) := by have := v.isLt; omega
  rw [immediateText, renderDigits_eq_toDigits_append (by decide) (by decide) 7 _ [] hv, List.append_nil]
  rfl

/-! ## Assembling canonical texts -/

/-- The first pass of canonical texts alone finds their statements and no parser error. -/
theorem firstPass_flatMap_disassemble (is : List Instr) (h : ∀ i ∈ is, i.wellFormed = true) :
    firstPass ((is.flatMap disassemble).length + 1) (is.flatMap disassemble) 0 = .ok ⟨stmtsFrom 0 is, []⟩ := by
  obtain ⟨spare, hlen⟩ := Nat.exists_eq_add_of_le (length_flatMap_le is)
  have hpass := firstPass_flatMap is h (spare + 1) [] 0
  rw [List.append_nil, ← Nat.add_assoc, ← hlen, firstPass_nil] at hpass
  simpa [Parsed.addCanonical] using hpass

/-- The link pass of canonical statements gives their encodings: they define no label and refer to none. -/
theorem linkUnit_stmtsFrom (is : List Instr) (h : ∀ i ∈ is, i.wellFormed = true) (pc : Nat) :
    linkUnit (stmtsFrom pc is) = .ok (is.flatMap (fun i => (encode i).getD [])) := by
  have hlabels : labelsOf (stmtsFrom pc is) = [] := by simpa [labelsOf] using labelsOf_stmtsFrom is pc []
  have himage := linkImage_stmtsFrom [] is h pc []
  rw [List.append_nil] at himage
  rw [linkUnit, hlabels, List.map_nil, if_pos List.nodup_nil, himage]
  simp [linkImage]

/-- Canonical texts assemble to the encodings of their instructions, with no parser error. -/
theorem assembleUnit_flatMap_disassemble (is : List Instr) (h : ∀ i ∈ is, i.wellFormed = true) :
    assembleUnit (is.flatMap disassemble) = .ok ⟨is.flatMap (fun i => (encode i).getD []), []⟩ := by
  simp only [assembleUnit, firstPass_flatMap_disassemble is h, linkUnit_stmtsFrom is h]

/-- Settles O44: rendered digits are the library's, the source's texts are evaluated, and both passes over a sequence of
canonical texts give the instructions' own statements and bytes. -/
theorem canonicalTextAssemblesBack : Obligations.CanonicalTextAssemblesBack := by
  refine ⟨registerText_eq_toDigits, immediateText_eq_toDigits, rfl, rfl, rfl, rfl, rfl, rfl, rfl, rfl, rfl,
    fun is h => ?_⟩
  rw [assemble, assembleUnit_flatMap_disassemble is h]

end Sys2Proof.Machine
end

section
/-!
PROOFS. Stops: what a step that raises leaves, that no step follows it, and the causes, exactly (60_exceptions.md R211,
R212).
-/

namespace Sys2Proof

/-! ## Instructions by their id -/

theorem Instr.exists_eq_push_iff (i : Instr) : (∃ r, i = .push r) ↔ i.id = .push := by
  cases i <;> simp [Instr.id]

theorem Instr.exists_eq_pop_iff (i : Instr) : (∃ r, i = .pop r) ↔ i.id = .pop := by
  cases i <;> simp [Instr.id]

end Sys2Proof

namespace Sys2Proof.Machine

/-! ## `raise` -/

/-- A raised state records its stop. -/
theorem State.raise_inj {s : State} {why why' : Stop} : s.raise why = s.raise why' ↔ why = why' := by
  refine ⟨fun h => ?_, congrArg s.raise⟩
  have hrun : RunState.stopped why = .stopped why' := congrArg State.run h
  exact RunState.stopped.inj hrun

/-- A running state is none that a raise gives. -/
theorem next_ne_next_raise {s t : State} (ht : t.run = .running) (why : Stop) :
    (.next t : Host.Outcome State Fault Refusal) ≠ .next (s.raise why) := by
  rintro ⟨⟩
  cases ht

/-! ## A stop is precise and final -/

/-- A step that gives a stopped state raised: at its fetch, or in the execution of what it fetched. -/
theorem eq_raise_of_step_stopped {s t : State} {why : Stop} (h : step s = .next t) (ht : t.run = .stopped why) :
    s.run = .running ∧ t = s.raise why := by
  obtain ⟨hrun, hcause⟩ := step_next s t h
  have hraise : ∃ why', t = s.raise why' := by
    obtain ⟨why', -, rfl⟩ | ⟨i, -, hi⟩ := hcause
    · exact ⟨why', rfl⟩
    · obtain ⟨u, hu, hkept | ⟨a, rfl⟩⟩ := exec_next i s
      · cases hi.symm.trans hu
        cases ht.symm.trans (hkept.trans hrun)
      · cases hi.symm.trans hu
        exact ⟨_, rfl⟩
  obtain ⟨why', rfl⟩ := hraise
  cases ht
  exact ⟨hrun, rfl⟩

/-- A stopped core takes no step, however many are asked for. -/
theorem runFor_succ_of_stopped {t : State} {why : Stop} (ht : t.run = .stopped why) (k : Nat) :
    runFor (k + 1) t = .fault (.stopped why) := by
  rw [runFor_succ, step_stopped t why ht]

/-- Settles O27: a step that gives a stopped state raised, and a raised state takes no further step. -/
theorem raiseWritesNothing : Obligations.RaiseWritesNothing := by
  intro s t why hstep ht
  obtain ⟨hrun, hraise⟩ := eq_raise_of_step_stopped hstep ht
  exact ⟨hrun, hraise, runFor_succ_of_stopped ht⟩

/-! ## The stop of a fetch -/

theorem fetchInstr_eq_error_iff (s : State) (why : Stop) :
    fetchInstr s = .error why ↔
      why = ⟨.fetchOutOfRange, s.ipr⟩ ∧ s.memSize < s.ipr.toNat + (decBytes [s.mem.read s.ipr.toNat]).size := by
  refine ⟨fetchInstr_error s why, ?_⟩
  rintro ⟨rfl, hout⟩
  rw [fetchInstr_eq, if_neg (Nat.not_le.mpr hout)]

/-! ## The stop of an execution -/

/-- An access of four bytes at `a` raises exactly where they do not fit in memory, and records `a`. -/
theorem access_eq_raise_iff {s t : State} (ht : t.run = .running) (a : Word) (why : Stop) :
    ((if a.toNat + 4 ≤ s.memSize then .next t else .next (s.raise ⟨.dataOutOfRange, a⟩) :
        Host.Outcome State Fault Refusal) = .next (s.raise why)) ↔
      why.cause = .dataOutOfRange ∧ s.memSize < why.addr.toNat + 4 ∧ why.addr = a := by
  split
  · next hin =>
    refine iff_of_false (next_ne_next_raise ht why) ?_
    rintro ⟨-, hout, rfl⟩
    exact Nat.not_lt.mpr hin hout
  · next hout =>
    rw [Host.Outcome.next.injEq, State.raise_inj]
    constructor
    · rintro rfl
      exact ⟨rfl, Nat.not_le.mp hout, rfl⟩
    · rintro ⟨hcause, -, haddr⟩
      exact (congrArg₂ Stop.mk hcause haddr).symm

/-- The stop an instruction of a given id raises in its execution (43_stack.md R160, R163): of PUSH and POP alone, at
their stack address, where four bytes do not fit in memory. -/
def State.AccessRaises (s : State) (why : Stop) (id : InstrId) : Prop :=
  why.cause = .dataOutOfRange ∧ s.memSize < why.addr.toNat + 4 ∧
    ((id = .push ∧ why.addr = s.spr - 4) ∨ (id = .pop ∧ why.addr = s.spr))

theorem exec_eq_raise_iff {s : State} (hrun : s.run = .running) (i : Instr) (why : Stop) :
    exec i s = .next (s.raise why) ↔ s.AccessRaises why i.id := by
  cases i with
  | push r =>
    rw [exec_push, access_eq_raise_iff]
    · simp [State.AccessRaises, Instr.id, pushAddr]
    · exact hrun
  | pop r =>
    rw [exec_pop, access_eq_raise_iff]
    · simp [State.AccessRaises, Instr.id]
    · exact hrun
  | _ => exact iff_of_false (next_ne_next_raise (by exact hrun) why) (by simp [State.AccessRaises, Instr.id])

/-! ## The stop of a step -/

/-- A step stops at its fetch, or in the execution of what it fetched. -/
theorem step_eq_raise_iff {s : State} (hrun : s.run = .running) (why : Stop) :
    step s = .next (s.raise why) ↔
      fetchInstr s = .error why ∨ ∃ i, fetchInstr s = .ok i ∧ exec i s = .next (s.raise why) := by
  rw [step_running s hrun]
  cases fetchInstr s with
  | error why' => simp [State.raise_inj]
  | ok i => simp

/-- An instruction whose execution can raise takes one byte. -/
theorem State.AccessRaises.size_eq_one {s : State} {why : Stop} {i : Instr} (h : s.AccessRaises why i.id) :
    i.size = 1 := by
  obtain ⟨-, -, ⟨hid, -⟩ | ⟨hid, -⟩⟩ := h
  · exact congrArg InstrId.size hid
  · exact congrArg InstrId.size hid

/-- What is fetched has an id with a property exactly when the instruction fits in memory and its first byte selects
such an id. -/
theorem exists_fetchInstr_id_iff (s : State) (P : InstrId → Prop) :
    (∃ i, fetchInstr s = .ok i ∧ P i.id) ↔
      s.ipr.toNat + (decBytes [s.mem.read s.ipr.toNat]).size ≤ s.memSize ∧
        P (decBytes [s.mem.read s.ipr.toNat]).id := by
  constructor
  · rintro ⟨i, hfetch, hi⟩
    refine ⟨?_, id_of_fetchInstr s i hfetch ▸ hi⟩
    by_contra hout
    rw [fetchInstr_eq, if_neg hout] at hfetch
    cases hfetch
  · rintro ⟨hin, hid⟩
    have hfetch := (fetchInstr_eq s).trans (if_pos hin)
    exact ⟨_, hfetch, (id_of_fetchInstr s _ hfetch).symm ▸ hid⟩

/-- Settles O28: a step stops in its fetch, which fails exactly where the instruction does not fit, or in the execution
of a PUSH or a POP, whose one byte fits wherever it lies in memory. -/
theorem stopCausesExactly : Obligations.StopCausesExactly := by
  refine ⟨rfl, rfl, fun s hrun why => (step_eq_raise_iff hrun why).trans (or_congr ?_ ?_)⟩
  · have hsize := Instr.size_cases (decBytes [s.mem.read s.ipr.toNat])
    rw [fetchInstr_eq_error_iff]
    exact and_congr_right fun _ => by omega
  · simp only [exec_eq_raise_iff hrun, Instr.exists_eq_push_iff, Instr.exists_eq_pop_iff]
    rw [exists_fetchInstr_id_iff s (s.AccessRaises why)]
    refine and_congr_left fun haccess => ?_
    rw [haccess.size_eq_one, Nat.add_one_le_iff]

end Sys2Proof.Machine
end

section
/-!
PROOFS. Memories in canonical form, and the states a run starts from (20_memory.md section 1, 10_state.md section 6,
70_reset_and_hazards.md R230).
-/

namespace Sys2Proof.Machine

/-! ## The canonical form -/

/-- An address that does not read as unlisted has an entry. -/
theorem Memory.mem_of_read_ne (m : Memory) (a : Nat) (h : m.read a ≠ Memory.unlisted) : (a, m.read a) ∈ m := by
  induction m with
  | nil => exact absurd rfl h
  | cons c m ih =>
    obtain ⟨k, v⟩ := c
    by_cases hk : a = k
    · simp [Memory.read, hk]
    · simp only [Memory.read, if_neg hk] at h ⊢
      exact List.mem_cons_of_mem _ (ih h)

/-- The entries of a canonical memory are its addresses that read as something else than unlisted, with their bytes. -/
theorem Memory.wf.mem_iff {m : Memory} (hm : m.wf) (c : Host.Cell) :
    c ∈ m ↔ m.read c.1 = c.2 ∧ c.2 ≠ Memory.unlisted := by
  obtain ⟨hsorted, hlisted⟩ := hm
  constructor
  · intro hc
    exact ⟨Memory.read_of_mem m hsorted c hc, hlisted c hc⟩
  · obtain ⟨a, b⟩ := c
    rintro ⟨hread : m.read a = b, hb⟩
    subst hread
    exact Memory.mem_of_read_ne m a hb

/-- Canonical memories that read alike have the same entries, in the same strictly rising order. -/
theorem Memory.wf.eq_of_read_eq {m n : Memory} (hm : m.wf) (hn : n.wf) (h : ∀ a, m.read a = n.read a) : m = n := by
  have hirrefl : Std.Irrefl (fun c d : Host.Cell => c.1 < d.1) := ⟨fun c => Nat.lt_irrefl c.1⟩
  have hantisymm : Std.Antisymm (fun c d : Host.Cell => c.1 < d.1) := ⟨fun c d hcd hdc => absurd hdc hcd.asymm⟩
  refine hm.1.eq_of_mem_iff hn.1 fun c => ?_
  rw [hm.mem_iff, hn.mem_iff, h]

/-- Settles O23: the entries of a canonical memory are determined by what it reads. -/
theorem canonicalMemoriesReadAlikeAreEqual : Obligations.CanonicalMemoriesReadAlikeAreEqual :=
  fun _ _ hm hn h => hm.eq_of_read_eq hn h

/-- A memory from a function holds the function's bytes below the bound alone (00_scope.md R12). -/
theorem Memory.ofFn_congr {f g : Nat → Byte} {n : Nat} (h : ∀ a, a < n → f a = g a) :
    Memory.ofFn f n = Memory.ofFn g n := by
  refine (Memory.wf_ofFn f n).eq_of_read_eq (Memory.wf_ofFn g n) fun a => ?_
  rw [Memory.read_ofFn, Memory.read_ofFn]
  split
  · next ha => exact h a ha
  · rfl

/-- A canonical memory below a bound is built again from what it reads there. -/
theorem Memory.ofFn_read {m : Memory} {n : Nat} (hm : m.wf) (hbelow : ∀ c ∈ m, c.1 < n) :
    Memory.ofFn m.read n = m := by
  refine (Memory.wf_ofFn m.read n).eq_of_read_eq hm fun a => ?_
  rw [Memory.read_ofFn]
  split
  · rfl
  · next ha => exact (Memory.read_of_not_listed m a fun c hc hca => ha (hca ▸ hbelow c hc)).symm

/-! ## Launches and resets -/

/-- Settles O38: a warm reset is a launch, whose memory is the old one built again. -/
theorem warmResetKeepsMemory : Obligations.WarmResetKeepsMemory := by
  rintro s v ⟨hwf, hbelow, -, -⟩
  exact ⟨Memory.ofFn_read hwf hbelow, rfl, State.launch_launched _⟩

/-- Settles O39: memory is the one field of a launch that is computed from MEM_INIT, below MEM_SIZE. -/
theorem launchDependsOnParametersAlone : Obligations.LaunchDependsOnParametersAlone := by
  rintro ⟨lastAddr, memInit, sprInit⟩ ⟨_, memInit', _⟩ rfl rfl hinit
  exact congrArg (fun m => { State.launch ⟨lastAddr, memInit, sprInit⟩ with mem := m }) (Memory.ofFn_congr hinit)

/-- Settles O40: a zero fill lists no byte. -/
theorem resetIsALaunch : Obligations.ResetIsALaunch := by
  have hmem : Memory.ofFn (fun _ => 0) (2 ^ 32) = [] := Memory.ofFn_read (m := []) ⟨.nil, nofun⟩ nofun
  exact ⟨congrArg (fun m => { State.reset with mem := m }) hmem.symm, rfl, rfl⟩

/-- Every launch meets the invariant: its memory is built from MEM_INIT below MEM_SIZE. -/
theorem State.launch_inv (p : Config.Params) : (State.launch p).Inv :=
  ⟨Memory.wf_ofFn _ _, Memory.ofFn_below _ _, rfl, BitVec.zero_and⟩

/-- Settles O41: the reset state is one of the launches. -/
theorem launchMeetsTheInvariant : Obligations.LaunchMeetsTheInvariant := by
  obtain ⟨hreset, -, -⟩ := resetIsALaunch
  exact ⟨hreset ▸ State.launch_inv _, State.launch_inv⟩

end Sys2Proof.Machine
end

section
/-!
PROOFS. What execution and the step may write (10_state.md sections 3 and 7), that a running core always steps
(70_reset_and_hazards.md R243), and that every step keeps the invariant.
-/

namespace Sys2Proof.Machine

/-! ## What execution can do -/

/-- The state PUSH completes with (43_stack.md R160). -/
def State.pushed (s : State) (r : Reg) : State :=
  ((s.setMem (s.mem.writeBytes (pushAddr s).toNat (leBytes (s.getGpr r)))).setSpr (pushAddr s)).advance 1

/-- The state POP completes with (43_stack.md R163). -/
def State.popped (s : State) (r : Reg) : State :=
  ((s.setSpr (s.spr + 4)).setGpr r (loadWord s.mem s.spr.toNat)).advance 1

theorem exec_push_next {r : Reg} {s t : State} (h : exec (.push r) s = .next t) :
    (s.inRange (pushAddr s) 4 ∧ t = s.pushed r) ∨ t = s.raise ⟨.dataOutOfRange, pushAddr s⟩ := by
  rw [exec_push] at h
  split at h
  · next hin => cases h; exact .inl ⟨hin, rfl⟩
  · cases h; exact .inr rfl

theorem exec_pop_next {r : Reg} {s t : State} (h : exec (.pop r) s = .next t) :
    (s.inRange s.spr 4 ∧ t = s.popped r) ∨ t = s.raise ⟨.dataOutOfRange, s.spr⟩ := by
  rw [exec_pop] at h
  split at h
  · next hin => cases h; exact .inl ⟨hin, rfl⟩
  · cases h; exact .inr rfl

/-- Every instruction but PUSH and POP writes at most general registers, `ipr` and `flagr`. -/
theorem exec_next_of_not_stack {i : Instr} {s t : State} (hpush : i.id ≠ .push) (hpop : i.id ≠ .pop)
    (h : exec i s = .next t) : t = { s with gpr := t.gpr, ipr := t.ipr, flagr := t.flagr } := by
  cases i with
  | push r => exact absurd rfl hpush
  | pop r => exact absurd rfl hpop
  | _ => cases h; rfl

/-- Everything execution can do outside general registers, `ipr` and `flagr`: nothing, a completed PUSH or POP, or a
stop of one of them. -/
theorem exec_next_cases {i : Instr} {s t : State} (h : exec i s = .next t) :
    (i.id ≠ .push ∧ i.id ≠ .pop ∧ t = { s with gpr := t.gpr, ipr := t.ipr, flagr := t.flagr }) ∨
      (∃ r, i = .push r ∧ s.inRange (pushAddr s) 4 ∧ t = s.pushed r) ∨
      (∃ r, i = .pop r ∧ s.inRange s.spr 4 ∧ t = s.popped r) ∨
      ((i.id = .push ∨ i.id = .pop) ∧ ∃ why, t = s.raise why) := by
  by_cases hpush : i.id = .push
  · obtain ⟨r, rfl⟩ := (Instr.exists_eq_push_iff i).mpr hpush
    rcases exec_push_next h with ⟨hin, ht⟩ | ht
    · exact .inr (.inl ⟨r, rfl, hin, ht⟩)
    · exact .inr (.inr (.inr ⟨.inl rfl, _, ht⟩))
  by_cases hpop : i.id = .pop
  · obtain ⟨r, rfl⟩ := (Instr.exists_eq_pop_iff i).mpr hpop
    rcases exec_pop_next h with ⟨hin, ht⟩ | ht
    · exact .inr (.inr (.inl ⟨r, rfl, hin, ht⟩))
    · exact .inr (.inr (.inr ⟨.inr rfl, _, ht⟩))
  exact .inl ⟨hpush, hpop, exec_next_of_not_stack hpush hpop h⟩

/-! ## The frame of an instruction -/

/-- A general register that is not the instruction's destination is left alone (10_state.md R38). -/
theorem exec_keeps_gpr {i : Instr} {s t : State} (h : exec i s = .next t) {q : Reg} (hq : i.writesGpr ≠ some q) :
    t.getGpr q = s.getGpr q := by
  have hother {r : Reg} (hr : i.writesGpr = some r) : ¬ q = r := fun e => hq (e ▸ hr)
  cases i with
  | nop => cases h; rfl
  | sti r v => cases h; simp [hother rfl]
  | jmpabs a => cases h; rfl
  | push r => rcases exec_push_next h with ⟨-, rfl⟩ | rfl <;> rfl
  | pop r =>
    rcases exec_pop_next h with ⟨-, rfl⟩ | rfl
    · simp [State.popped, hother rfl]
    · rfl
  | mov d r => cases h; simp [hother rfl]
  | xor d r => cases h; simp [hother rfl]
  | add d r => cases h; simp [hother rfl]
  | invalid => cases h; rfl

/-- No instruction writes `retr` or MEM_SIZE (10_state.md R24, R34). -/
theorem exec_keeps_retr_lastAddr {i : Instr} {s t : State} (h : exec i s = .next t) :
    t.retr = s.retr ∧ t.lastAddr = s.lastAddr := by
  obtain ⟨-, -, ht⟩ | ⟨r, -, -, rfl⟩ | ⟨r, -, -, rfl⟩ | ⟨-, why, rfl⟩ := exec_next_cases h
  · rw [ht]; exact ⟨rfl, rfl⟩
  all_goals exact ⟨rfl, rfl⟩

/-- Only PUSH writes memory (10_state.md R38). -/
theorem exec_keeps_mem {i : Instr} {s t : State} (h : exec i s = .next t) (hpush : i.id ≠ .push) : t.mem = s.mem := by
  obtain ⟨-, -, ht⟩ | ⟨r, rfl, -, -⟩ | ⟨r, -, -, rfl⟩ | ⟨-, why, rfl⟩ := exec_next_cases h
  · rw [ht]
  · exact absurd rfl hpush
  · rfl
  · rfl

/-- PUSH leaves every byte outside the four at its address (43_stack.md R160). -/
theorem exec_push_read_outside {r : Reg} {s t : State} (h : exec (.push r) s = .next t) {a : Nat}
    (ha : a < (pushAddr s).toNat ∨ (pushAddr s).toNat + 4 ≤ a) : t.mem.read a = s.mem.read a := by
  rcases exec_push_next h with ⟨-, rfl⟩ | rfl
  · exact s.mem.read_writeBytes_outside (pushAddr s).toNat (leBytes (s.getGpr r)) a ha
  · rfl

/-- Settles O34: one lemma for each column of the access matrix. -/
theorem unwrittenStateIsUnchanged : Obligations.UnwrittenStateIsUnchanged := by
  intro i s t h
  obtain ⟨hretr, hlast⟩ := exec_keeps_retr_lastAddr h
  refine ⟨fun q hq => exec_keeps_gpr h hq, fun hpush hpop => ?_, fun hxor hadd => exec_keeps_flagr i s t hxor hadd h,
    fun hpush a => by rw [exec_keeps_mem h hpush], fun hpush a ha => ?_, hretr, congrArg (·.toNat + 1) hlast⟩
  · rw [exec_next_of_not_stack hpush hpop h]
    exact ⟨rfl, rfl⟩
  · obtain ⟨r, rfl⟩ := (Instr.exists_eq_push_iff i).mpr hpush
    exact exec_push_read_outside h ha

/-! ## The step -/

/-- Settles O29: a fetch that fails is a stop, and every instruction has a next state; a stopped core faults. -/
theorem runningCoreAlwaysSteps : Obligations.RunningCoreAlwaysSteps := by
  have hsteps (s : State) (hrun : s.run = .running) : ∃ t, step s = .next t := by
    rw [step_running s hrun]
    cases fetchInstr s with
    | error why => exact ⟨_, rfl⟩
    | ok i =>
      obtain ⟨t, ht, -⟩ := exec_next i s
      exact ⟨t, ht⟩
  refine fun s => ⟨hsteps s, fun r => ?_⟩
  rcases s.run_cases with hrun | ⟨why, hstop⟩
  · obtain ⟨t, ht⟩ := hsteps s hrun
    rw [ht]; nofun
  · rw [step_stopped s why hstop]; nofun

/-- A relation between the states before and after holds of every step where it holds of every stop and of every
execution of what was fetched. -/
theorem step_rel_of_exec {P : State → State → Prop} (hraise : ∀ s why, P s (s.raise why))
    (hexec : ∀ i s t, exec i s = .next t → P s t) {s t : State} (h : step s = .next t) : P s t := by
  obtain ⟨-, ⟨why, -, rfl⟩ | ⟨i, -, hi⟩⟩ := step_next s t h
  · exact hraise s why
  · exact hexec i s t hi

theorem step_keeps_retr_lastAddr {s t : State} (h : step s = .next t) : t.retr = s.retr ∧ t.lastAddr = s.lastAddr :=
  step_rel_of_exec (P := fun s t => t.retr = s.retr ∧ t.lastAddr = s.lastAddr) (fun _ _ => ⟨rfl, rfl⟩)
    (fun _ _ _ => exec_keeps_retr_lastAddr) h

/-! ## The invariant -/

/-- Canonical memory below MEM_SIZE stays so: the bytes PUSH stores lie inside memory. -/
theorem exec_keeps_mem_wf_below {i : Instr} {s t : State} (h : exec i s = .next t) (hwf : s.mem.wf)
    (hbelow : ∀ c ∈ s.mem, c.1 < s.memSize) : t.mem.wf ∧ ∀ c ∈ t.mem, c.1 < s.memSize := by
  by_cases hpush : i.id = .push
  · obtain ⟨r, rfl⟩ := (Instr.exists_eq_push_iff i).mpr hpush
    rcases exec_push_next h with ⟨hin, rfl⟩ | rfl
    · exact ⟨Memory.wf_writeBytes _ _ _ hwf, Memory.writeBytes_below _ _ _ _ hbelow hin⟩
    · exact ⟨hwf, hbelow⟩
  · rw [exec_keeps_mem h hpush]
    exact ⟨hwf, hbelow⟩

/-- Bits 15 to 2 of `flagr` stay 0: what XOR and ADD write has no others (10_state.md R30). -/
theorem exec_keeps_flagr_high {i : Instr} {s t : State} (h : exec i s = .next t) (hflagr : s.flagr &&& 0xfffc = 0) :
    t.flagr &&& 0xfffc = 0 := by
  by_cases hxor : i.id = .xor
  · rcases exec_xor_flagr i s t hxor h with ht | ht <;> rw [ht] <;> rfl
  by_cases hadd : i.id = .add
  · rcases exec_add_flagr i s t hadd h with ht | ht | ht | ht <;> rw [ht] <;> rfl
  rwa [exec_keeps_flagr i s t hxor hadd h]

theorem exec_keeps_inv {i : Instr} {s t : State} (hs : s.Inv) (h : exec i s = .next t) : t.Inv := by
  obtain ⟨hwf, hbelow, hretr, hflagr⟩ := hs
  obtain ⟨hkretr, hklast⟩ := exec_keeps_retr_lastAddr h
  obtain ⟨htwf, htbelow⟩ := exec_keeps_mem_wf_below h hwf hbelow
  have hsize : t.memSize = s.memSize := congrArg (·.toNat + 1) hklast
  exact ⟨htwf, hsize ▸ htbelow, hkretr.trans hretr, exec_keeps_flagr_high h hflagr⟩

/-- Settles O42: a stop writes only `run`, and execution keeps each part of the invariant. -/
theorem stepKeepsTheInvariant : Obligations.StepKeepsTheInvariant := by
  intro s t hs h
  obtain ⟨-, hlast⟩ := step_keeps_retr_lastAddr h
  exact ⟨step_rel_of_exec (P := fun s t => s.Inv → t.Inv) (fun _ _ hs => hs)
    (fun _ _ _ h hs => exec_keeps_inv hs h) h hs, congrArg (·.toNat + 1) hlast⟩

end Sys2Proof.Machine
end

section
/-!
PROOFS. Two cores that agree on what a step reads: `flagr` and `retr` are read by none, `spr` by PUSH and POP alone, and
control flow reads no general register and no flag (10_state.md section 3, 41_control.md section 4).
-/

namespace Sys2Proof.Machine

/-! ## Steps of two cores side by side -/

/-- A fetch reads `ipr`, memory and MEM_SIZE alone (40_decoder_and_sequencer.md R118). -/
theorem fetchInstr_congr {s s' : State} (hipr : s'.ipr = s.ipr) (hmem : s'.mem = s.mem)
    (hlast : s'.lastAddr = s.lastAddr) : fetchInstr s' = fetchInstr s := by
  rw [fetchInstr_eq, fetchInstr_eq, State.memSize, State.memSize, hipr, hmem, hlast]

/-- Two running cores that fetch alike step to related states when their stops and the executions of what they fetch
are related. -/
theorem step_next_sim {R : State → State → Prop} {s s' t : State} (hrun : s'.run = s.run)
    (hfetch : fetchInstr s' = fetchInstr s) (h : step s = .next t)
    (hraise : ∀ why, fetchInstr s = .error why → R (s.raise why) (s'.raise why))
    (hexec : ∀ i, fetchInstr s = .ok i → exec i s = .next t → ∃ t', exec i s' = .next t' ∧ R t t') :
    ∃ t', step s' = .next t' ∧ R t t' := by
  obtain ⟨hs, ⟨why, hwhy, rfl⟩ | ⟨i, hi, ht⟩⟩ := step_next s t h
  · refine ⟨s'.raise why, ?_, hraise why hwhy⟩
    rw [step_running s' (hrun.trans hs), hfetch, hwhy]
  · obtain ⟨t', ht', hR⟩ := hexec i hi ht
    exact ⟨t', (step_at s' i (hrun.trans hs) (hfetch.trans hi)).trans ht', hR⟩

/-- Whether PUSH completes depends on `spr` and MEM_SIZE alone (43_stack.md R160). -/
theorem exec_push_congr {r : Reg} {s s' t : State} (hspr : s'.spr = s.spr) (hlast : s'.lastAddr = s.lastAddr)
    (h : exec (.push r) s = .next t) :
    (t = s.pushed r ∧ exec (.push r) s' = .next (s'.pushed r)) ∨
      (∃ why, t = s.raise why ∧ exec (.push r) s' = .next (s'.raise why)) := by
  have hin : s'.inRange (pushAddr s') 4 ↔ s.inRange (pushAddr s) 4 := by
    rw [State.inRange, State.inRange, State.memSize, State.memSize, pushAddr, pushAddr, hspr, hlast]
  rw [exec_push] at h ⊢
  split at h
  · next hs => cases h; exact .inl ⟨rfl, if_pos (hin.mpr hs)⟩
  · next hs => cases h; exact .inr ⟨_, rfl, (if_neg (mt hin.mp hs)).trans (by rw [pushAddr, pushAddr, hspr])⟩

/-- Whether POP completes depends on `spr` and MEM_SIZE alone (43_stack.md R163). -/
theorem exec_pop_congr {r : Reg} {s s' t : State} (hspr : s'.spr = s.spr) (hlast : s'.lastAddr = s.lastAddr)
    (h : exec (.pop r) s = .next t) :
    (t = s.popped r ∧ exec (.pop r) s' = .next (s'.popped r)) ∨
      (∃ why, t = s.raise why ∧ exec (.pop r) s' = .next (s'.raise why)) := by
  have hin : s'.inRange s'.spr 4 ↔ s.inRange s.spr 4 := by
    rw [State.inRange, State.inRange, State.memSize, State.memSize, hspr, hlast]
  rw [exec_pop] at h ⊢
  split at h
  · next hs => cases h; exact .inl ⟨rfl, if_pos (hin.mpr hs)⟩
  · next hs => cases h; exact .inr ⟨_, rfl, (if_neg (mt hin.mp hs)).trans (by rw [hspr])⟩

/-! ## The flags -/

/-- Execution reads no flag: whatever `flagr` holds, the next state is the same but for `flagr`. -/
theorem exec_setFlagr {i : Instr} {s t : State} (h : exec i s = .next t) (f : FlagWord) :
    ∃ g, exec i (s.setFlagr f) = .next (t.setFlagr g) := by
  cases i with
  | push r =>
    obtain ⟨rfl, h'⟩ | ⟨why, rfl, h'⟩ := exec_push_congr (s := s) (s' := s.setFlagr f) rfl rfl h
    · exact ⟨f, h'⟩
    · exact ⟨f, h'⟩
  | pop r =>
    obtain ⟨rfl, h'⟩ | ⟨why, rfl, h'⟩ := exec_pop_congr (s := s) (s' := s.setFlagr f) rfl rfl h
    · exact ⟨f, h'⟩
    · exact ⟨f, h'⟩
  | xor d r => cases h; exact ⟨_, rfl⟩
  | add d r => cases h; exact ⟨_, rfl⟩
  | _ => cases h; exact ⟨f, rfl⟩

theorem step_setFlagr {s t : State} (h : step s = .next t) (f : FlagWord) :
    ∃ g, step (s.setFlagr f) = .next (t.setFlagr g) := by
  obtain ⟨_, ht', g, rfl⟩ :=
    step_next_sim (s := s) (R := fun t t' => ∃ g, t' = t.setFlagr g) (s' := s.setFlagr f) rfl
      (fetchInstr_congr rfl rfl rfl) h (fun _ _ => ⟨f, rfl⟩) fun i _ hi =>
        (exec_setFlagr hi f).elim fun g hg => ⟨_, hg, g, rfl⟩
  exact ⟨g, ht'⟩

/-- A run from a core with other flags completes with a state that differs at most in `flagr`, or faults alike. -/
theorem runFor_setFlagr (k : Nat) (s : State) (f : FlagWord) :
    (∃ t g, runFor k s = .next t ∧ runFor k (s.setFlagr f) = .next (t.setFlagr g)) ∨
      (∃ r, runFor k s = .fault r ∧ runFor k (s.setFlagr f) = .fault r) := by
  induction k generalizing s f with
  | zero => exact .inl ⟨s, f, rfl, rfl⟩
  | succ k ih =>
    rcases s.run_cases with hrun | ⟨why, hstop⟩
    · obtain ⟨hsteps, -⟩ := runningCoreAlwaysSteps s
      obtain ⟨t, ht⟩ := hsteps hrun
      obtain ⟨g, hg⟩ := step_setFlagr ht f
      rw [runFor_succ, runFor_succ, ht, hg]
      exact ih t g
    · exact .inr ⟨_, runFor_succ_of_stopped hstop k, runFor_succ_of_stopped (t := s.setFlagr f) hstop k⟩

/-- Settles O35: by induction on the number of steps, each of which reads no flag. -/
theorem flagsCannotBeObserved : Obligations.FlagsCannotBeObserved := by
  intro k s f
  obtain ⟨t, g, h, h'⟩ | ⟨r, h, h'⟩ := runFor_setFlagr k s f
  · rw [h, show runFor k { s with flagr := f } = _ from h']
    exact ⟨g, rfl⟩
  · rw [h, show runFor k { s with flagr := f } = _ from h']

/-! ## `retr` -/

theorem exec_with_retr {i : Instr} {s t : State} (h : exec i s = .next t) (v : Word) :
    exec i { s with retr := v } = .next { t with retr := v } := by
  cases i with
  | push r =>
    obtain ⟨rfl, h'⟩ | ⟨why, rfl, h'⟩ := exec_push_congr (s := s) (s' := { s with retr := v }) rfl rfl h
    · exact h'
    · exact h'
  | pop r =>
    obtain ⟨rfl, h'⟩ | ⟨why, rfl, h'⟩ := exec_pop_congr (s := s) (s' := { s with retr := v }) rfl rfl h
    · exact h'
    · exact h'
  | _ => cases h; rfl

theorem step_with_retr {s t : State} (h : step s = .next t) (v : Word) :
    step { s with retr := v } = .next { t with retr := v } := by
  obtain ⟨_, ht', rfl⟩ :=
    step_next_sim (s := s) (R := fun t t' => t' = { t with retr := v }) (s' := { s with retr := v }) rfl
      (fetchInstr_congr rfl rfl rfl) h (fun _ _ => rfl) fun i _ hi => ⟨_, exec_with_retr hi v, rfl⟩
  exact ht'

/-- Settles O32: a launch has `retr` 0 and no step writes it; no instruction reads it; its name has no index. -/
theorem retrHoldsZero : Obligations.RetrHoldsZero := by
  have hkeeps (s t : State) (h : step s = .next t) : t.retr = s.retr := by
    obtain ⟨hretr, -⟩ := step_keeps_retr_lastAddr h
    exact hretr
  exact ⟨fun p k t => runFor_keeps (·.retr = 0) (fun s t hs h => (hkeeps s t h).trans hs) k _ t rfl, hkeeps,
    fun s t v h => step_with_retr h v, rfl⟩

/-! ## `spr` -/

theorem exec_spr_cases {i : Instr} {s t : State} (h : exec i s = .next t) :
    t.spr = s.spr ∨ (t.spr = s.spr - 4 ∧ i.id = .push) ∨ (t.spr = s.spr + 4 ∧ i.id = .pop) := by
  obtain ⟨-, -, ht⟩ | ⟨r, rfl, -, rfl⟩ | ⟨r, rfl, -, rfl⟩ | ⟨-, why, rfl⟩ := exec_next_cases h
  · rw [ht]; exact .inl rfl
  · exact .inr (.inl ⟨rfl, rfl⟩)
  · exact .inr (.inr ⟨rfl, rfl⟩)
  · exact .inl rfl

theorem step_spr_cases {s t : State} (h : step s = .next t) :
    t.spr = s.spr ∨ (t.spr = s.spr - 4 ∧ decodedId s = some .push) ∨
      (t.spr = s.spr + 4 ∧ decodedId s = some .pop) := by
  obtain ⟨-, ⟨why, -, rfl⟩ | ⟨i, hf, hi⟩⟩ := step_next s t h
  · exact .inl rfl
  · rw [decodedId_of_fetch s i hf]
    simpa using exec_spr_cases hi

/-- An instruction that is not of the stack does not read `spr`. -/
theorem exec_with_spr {i : Instr} {s t : State} (hpush : i.id ≠ .push) (hpop : i.id ≠ .pop) (h : exec i s = .next t)
    (v : Word) : exec i { s with spr := v } = .next { t with spr := v } := by
  cases i with
  | push r => exact absurd rfl hpush
  | pop r => exact absurd rfl hpop
  | _ => cases h; rfl

theorem step_with_spr {s t : State} (hpush : decodedId s ≠ some .push) (hpop : decodedId s ≠ some .pop)
    (h : step s = .next t) (v : Word) : step { s with spr := v } = .next { t with spr := v } := by
  obtain ⟨_, ht', rfl⟩ :=
    step_next_sim (s := s) (R := fun t t' => t' = { t with spr := v }) (s' := { s with spr := v }) rfl
      (fetchInstr_congr rfl rfl rfl) h (fun _ _ => rfl) fun i hf hi => by
        rw [decodedId_of_fetch s i hf] at hpush hpop
        exact ⟨_, exec_with_spr (fun e => hpush (congrArg some e)) (fun e => hpop (congrArg some e)) hi v, rfl⟩
  exact ht'

/-- Settles O33: `spr` moves by 4, which divides 2^32, in PUSH and POP alone, and no other instruction reads it. -/
theorem sprMovesByFour : Obligations.SprMovesByFour := by
  refine ⟨fun _ => rfl, fun s t h => ⟨step_spr_cases h, ?_⟩,
    fun s t v hpush hpop h => step_with_spr hpush hpop h v, rfl⟩
  obtain ht | ⟨ht, -⟩ | ⟨ht, -⟩ := step_spr_cases h
  · rw [ht]
  · rw [ht]; bv_omega
  · rw [ht]; bv_omega

/-! ## Control flow -/

/-- Two states agree on what control flow reads: `ipr`, `spr`, `run` and MEM_SIZE. -/
structure State.SameControl (s s' : State) : Prop where
  ipr : s'.ipr = s.ipr
  spr : s'.spr = s.spr
  run : s'.run = s.run
  lastAddr : s'.lastAddr = s.lastAddr

/-- An instruction takes states that agree on control to such states (41_control.md R146). -/
theorem exec_sameControl {i : Instr} {s s' t : State} (hs : s.SameControl s') (h : exec i s = .next t) :
    ∃ t', exec i s' = .next t' ∧ t.SameControl t' := by
  obtain ⟨hipr, hspr, hrun, hlast⟩ := hs
  have hnext (n : Nat) : s'.ipr + BitVec.ofNat 32 n = s.ipr + BitVec.ofNat 32 n := congrArg (· + _) hipr
  cases i with
  | jmpabs a => cases h; exact ⟨_, rfl, rfl, hspr, hrun, hlast⟩
  | push r =>
    obtain ⟨rfl, h'⟩ | ⟨why, rfl, h'⟩ := exec_push_congr hspr hlast h
    · exact ⟨_, h', hnext 1, congrArg (· - 4) hspr, hrun, hlast⟩
    · exact ⟨_, h', hipr, hspr, rfl, hlast⟩
  | pop r =>
    obtain ⟨rfl, h'⟩ | ⟨why, rfl, h'⟩ := exec_pop_congr hspr hlast h
    · exact ⟨_, h', hnext 1, congrArg (· + 4) hspr, hrun, hlast⟩
    · exact ⟨_, h', hipr, hspr, rfl, hlast⟩
  | _ => cases h; exact ⟨_, rfl, hnext _, hspr, hrun, hlast⟩

/-- Settles O36: both cores fetch the same instruction, which reads of the state no more than they agree on to write
`ipr`, `spr` and `run`; only PUSH writes memory. -/
theorem controlFlowIgnoresData : Obligations.ControlFlowIgnoresData := by
  intro s s' t t' hipr hspr hmem hlast hs hs' h h'
  have hcontrol : s.SameControl s' := ⟨hipr, hspr, hs'.trans hs.symm, hlast⟩
  obtain ⟨u, hu, ⟨hipr, hspr, hrun, -⟩, hmem⟩ :=
    step_next_sim (R := fun t t' => t.SameControl t' ∧ (decodedId s ≠ some .push → t'.mem = t.mem)) hcontrol.run
      (fetchInstr_congr hipr hmem hlast) h (fun why _ => ⟨⟨hipr, hspr, rfl, hlast⟩, fun _ => hmem⟩)
      fun i hf hi => by
        obtain ⟨t', ht', hsame⟩ := exec_sameControl hcontrol hi
        refine ⟨t', ht', hsame, fun hid => ?_⟩
        have hpush : i.id ≠ .push := fun e => hid ((decodedId_of_fetch s i hf).trans (congrArg some e))
        rw [exec_keeps_mem ht' hpush, exec_keeps_mem hi hpush, hmem]
  cases h'.symm.trans hu
  exact ⟨hipr, hspr, hrun, hmem⟩

end Sys2Proof.Machine
end

section
/-!
PROOFS. The step runs what it decodes: bytes beyond an instruction (40_decoder_and_sequencer.md R112), the step of a
decoded instruction (R118), a placed word (70_reset_and_hazards.md section 4) and runs of invalid bytes (41_control.md
section 3).
-/

namespace Sys2Proof

/-- Settles O7: each word is decoded by evaluation. -/
theorem vectorWordsDecode : Obligations.VectorWordsDecode :=
  ⟨rfl, rfl, rfl, rfl, rfl, rfl, rfl, rfl, rfl, rfl⟩

/-- The first byte of a non-empty string is the first of any that agrees with it on at least one byte. -/
theorem exists_cons_of_take_eq {b : Byte} {bs cs : List Byte} {n : Nat} (hn : 0 < n)
    (h : (b :: bs).take n = cs.take n) : ∃ cs', cs = b :: cs' := by
  obtain ⟨n, rfl⟩ := Nat.exists_eq_succ_of_ne_zero hn.ne'
  cases cs with
  | nil => cases h
  | cons c cs =>
    rw [List.take_succ_cons, List.take_succ_cons] at h
    exact ⟨cs, by rw [List.head_eq_of_cons_eq h]⟩

/-- Settles O6: the bytes consumed are the encoding of what they decode to, which decodes back whatever follows it; for
Invalid they are the first byte, which alone fixes the id. -/
theorem bytesBeyondLengthIgnored : Obligations.BytesBeyondLengthIgnored := by
  intro bs cs hne htake hle
  have hpos : 0 < (decBytes bs).size := by
    have := Instr.size_cases (decBytes bs)
    omega
  by_cases hinvalid : decBytes bs = .invalid
  · obtain ⟨b, bs, rfl⟩ := List.exists_cons_of_ne_nil hne
    obtain ⟨cs, rfl⟩ := exists_cons_of_take_eq hpos htake
    rw [hinvalid, ← Instr.id_eq_invalid_iff, decBytes_id, ← decBytes_id b bs, hinvalid]
    rfl
  · rw [Instr.size_eq_length _ hinvalid] at htake hle
    have hencode : encode (decBytes bs) = some (cs.take (decBytes bs).length) := htake ▸ encode_decBytes hinvalid hle
    have hdecode := decBytes_encode_append hencode (cs.drop (decBytes bs).length)
    rwa [List.take_append_drop] at hdecode

end Sys2Proof

namespace Sys2Proof.Machine

/-! ## The step of a decoded instruction -/

/-- What the bytes at an address decode to consumes as many bytes as the first of them asks for. -/
theorem size_eq_of_decBytes_readBytes {m : Memory} {a : Nat} {i : Instr} (h : decBytes (m.readBytes a i.size) = i) :
    (decBytes [m.read a]).size = i.size := by
  obtain ⟨n, hn⟩ : ∃ n, i.size = n + 1 := ⟨i.size - 1, by have := i.size_cases; omega⟩
  rw [hn, Memory.readBytes] at h
  rw [← decBytes_size, h]

/-- Settles O24: the fetch reads the bytes of the instruction the first byte asks for. -/
theorem stepRunsTheDecodedInstruction : Obligations.StepRunsTheDecodedInstruction := by
  intro s i hrun hin hi
  have hsize := size_eq_of_decBytes_readBytes hi
  rw [step_of_fetch_inside hrun (hsize ▸ hin), hsize, hi]

/-! ## A placed word -/

theorem length_wordBytes (w n : Nat) : (wordBytes w n).length = n := by
  induction n generalizing w with
  | zero => rfl
  | succ n ih => rw [wordBytes, List.length_cons, ih]

theorem decodeTableWord_eq_some_iff {nbits w : Nat} {i : Instr} :
    decodeTableWord nbits w = some i ↔ ∃ rest, decode (tableBytes nbits w) = .ok (i, rest) := by
  unfold decodeTableWord
  cases decode (tableBytes nbits w) with
  | error e => simp
  | ok r => obtain ⟨j, rest⟩ := r; simp

/-- With five bytes inside memory at `ipr` a word is placed whole. -/
theorem State.withFetchWord_eq {s : State} (nbits w : Nat) (hin : s.ipr.toNat + 5 ≤ s.memSize) :
    s.withFetchWord nbits w =
      { s with mem := s.mem.writeBytes s.ipr.toNat (tableBytes nbits w), run := .running } := by
  have hlen : (tableBytes nbits w).length = 5 := length_wordBytes _ _
  rw [State.withFetchWord, State.place, List.take_of_length_le (by omega)]
  rfl

/-- Settles O43: a word is placed whole, read back as it was placed, and decoded from no more bytes than were placed. -/
theorem placedWordRunsNext : Obligations.PlacedWordRunsNext := by
  intro s nbits w i hin hword
  have hlen : (tableBytes nbits w).length = 5 := length_wordBytes _ _
  obtain ⟨rest, hrest⟩ := decodeTableWord_eq_some_iff.mp hword
  obtain ⟨hne, hi, hsize, -⟩ := (decode_eq_ok_iff _ _ _).mp hrest
  rw [State.withFetchWord_eq nbits w hin]
  refine ⟨stepRunsTheDecodedInstruction _ i rfl ?_ ?_, rfl, fun a ha => ?_⟩
  · show s.ipr.toNat + i.size ≤ s.memSize
    omega
  · have hread := s.mem.readBytes_writeBytes s.ipr.toNat (tableBytes nbits w)
    show decBytes ((s.mem.writeBytes s.ipr.toNat (tableBytes nbits w)).readBytes s.ipr.toNat i.size) = i
    rw [← Memory.take_readBytes _ _ _ _ hsize, hread]
    refine (bytesBeyondLengthIgnored (tableBytes nbits w) _ hne ?_ ?_).trans hi
    · rw [hi, List.take_take, min_self]
    · rwa [hi]
  · exact s.mem.read_writeBytes_outside _ _ a (hlen ▸ ha)

/-! ## Invalid bytes -/

/-- Settles O30: by induction on the number of steps, each at a first byte that is an instruction of its own. Only after
the last byte can `ipr` have wrapped. -/
theorem invalidBytesTakeOneStepEach : Obligations.InvalidBytesTakeOneStepEach := by
  intro k
  induction k with
  | zero => intro s _ _ _; rw [runFor_zero, BitVec.add_zero]
  | succ k ih =>
    intro s hrun hin hbytes
    have hsize := memSize_le s
    have hfetch : fetchInstr s = .ok .invalid := fetchInstr_invalid (by omega) (hbytes 0 k.succ_pos)
    have hstep : step s = .next (s.advance 1) := (step_at s .invalid hrun hfetch).trans (exec_invalid s)
    have hipr : (s.advance 1).ipr.toNat = (s.ipr.toNat + 1) % 2 ^ 32 := BitVec.toNat_add _ _
    have hrest : runFor k (s.advance 1) =
        .next { s.advance 1 with ipr := (s.advance 1).ipr + BitVec.ofNat 32 k } := by
      refine ih (s.advance 1) hrun (show (s.advance 1).ipr.toNat + k ≤ s.memSize by omega) fun j hj => ?_
      rw [hipr, Nat.mod_eq_of_lt (by omega), Nat.add_assoc, Nat.add_comm 1 j]
      exact hbytes (j + 1) (by omega)
    rw [runFor_succ, hstep]
    refine hrest.trans ?_
    rw [State.advance_ipr, BitVec.add_assoc, ← BitVec.ofNat_add, Nat.add_comm 1 k]
    rfl

end Sys2Proof.Machine
end

section
/-!
PROOFS. The stack's laws (43_stack.md section 3, 95_test_vectors.md section 2.4) and the flag outcomes in full
(44_alu.md section 3).
-/

namespace Sys2Proof.Machine

/-! ## Words in memory -/

/-- A word is loaded back from where it was stored (20_memory.md R53, R54). -/
theorem loadWord_writeBytes_leBytes (m : Memory) (a : Nat) (v : Word) :
    loadWord (m.writeBytes a (leBytes v)) a = v := by
  have hbyte := m.read_writeBytes_leBytes a v
  have hfirst : (m.writeBytes a (leBytes v)).read a = byteOf v 0 := hbyte 0 (by decide)
  rw [loadWord, hfirst, hbyte 1 (by decide), hbyte 2 (by decide), hbyte 3 (by decide), le32_byteOf]

/-- The bytes of the loaded word are those in memory. -/
theorem leBytes_loadWord (m : Memory) (a : Nat) : leBytes (loadWord m a) = m.readBytes a 4 :=
  leBytes_le32 _ _ _ _

/-- Storing what memory holds leaves a canonical memory as it is. -/
theorem Memory.writeBytes_readBytes {m : Memory} (hm : m.wf) (a n : Nat) : m.writeBytes a (m.readBytes a n) = m := by
  refine (Memory.wf_writeBytes m a _ hm).eq_of_read_eq hm fun x => ?_
  rw [Memory.read_writeBytes, Memory.length_readBytes]
  split
  · next hx => rw [Memory.getD_readBytes m a n (x - a) (by omega), Nat.add_sub_cancel' hx.1]
  · rfl

/-! ## PUSH and POP -/

/-- Settles O20: POP loads at the address PUSH stored to, inside memory, and adds what PUSH subtracted. -/
theorem pushThenPop : Obligations.PushThenPop := by
  intro ra rb s t h ht
  obtain ⟨hin, rfl⟩ | rfl := exec_push_next h
  · refine ⟨(s.pushed ra).popped rb, (exec_pop rb _).trans (if_pos hin), ht, fun q => ?_, ?_, rfl, ?_, rfl, rfl⟩
    · rw [State.popped, State.advance_getGpr, State.getGpr_setGpr]
      exact if_congr Iff.rfl (loadWord_writeBytes_leBytes _ _ _) rfl
    · exact BitVec.sub_add_cancel s.spr 4
    · exact s.mem.readBytes_writeBytes (pushAddr s).toNat (leBytes (s.getGpr ra))
  · cases ht

/-- Settles O21: PUSH stores the loaded word where POP loaded it. -/
theorem popThenPush : Obligations.PopThenPush := by
  intro r s t hwf h ht
  obtain ⟨hin, rfl⟩ | rfl := exec_pop_next h
  · have haddr : pushAddr (s.popped r) = s.spr := BitVec.add_sub_cancel s.spr 4
    have hgpr : (s.popped r).getGpr r = loadWord s.mem s.spr.toNat := by
      rw [State.popped, State.advance_getGpr, State.getGpr_setGpr, if_pos rfl]
    refine ⟨(s.popped r).pushed r, (exec_push r _).trans (if_pos (haddr.symm ▸ hin)), ht, ?_, haddr, fun _ => rfl⟩
    show s.mem.writeBytes (pushAddr (s.popped r)).toNat (leBytes ((s.popped r).getGpr r)) = s.mem
    rw [haddr, hgpr, leBytes_loadWord, Memory.writeBytes_readBytes hwf]
  · cases ht

/-! ## The flags in full -/

/-- All 16 bits ADD writes: Carry is of the integer sum, Zero of the sum modulo 2^32 (44_alu.md R172). -/
theorem flagsOf_alu_add (a b : Word) :
    flagsOf (alu .add a b) =
      (if 2 ^ 32 ≤ a.toNat + b.toNat then 0x0001 else 0) |||
        (if (a.toNat + b.toNat) % 2 ^ 32 = 0 then 0x0002 else 0) := by
  have hzero : (alu .add a b).zero = true ↔ (a.toNat + b.toNat) % 2 ^ 32 = 0 := by
    rw [alu_zero, alu_add_result, beq_iff_eq, ← BitVec.toNat_inj, BitVec.toNat_add]
    rfl
  simp only [flagsOf, alu_add_carry, hzero, carryMask, zeroMask, decide_eq_true_eq]

/-- Settles O17: the four lines are the cases of a sum of two words by Carry and Zero. -/
theorem flagOutcomeTable : Obligations.FlagOutcomeTable := by
  intro dst src s p q
  have hp : p < 2 ^ 32 := (s.getGpr dst).isLt
  have hq : q < 2 ^ 32 := (s.getGpr src).isLt
  refine ⟨⟨_, exec_add dst src s, ?_⟩, ⟨_, exec_xor dst src s, ?_, ?_⟩⟩
  · have hresult : (((s.writeAlu dst (alu .add (s.getGpr dst) (s.getGpr src))).advance 2).getGpr dst).toNat =
        (p + q) % 2 ^ 32 := by
      rw [State.advance_getGpr, State.writeAlu_getGpr, if_pos rfl, alu_add_result, BitVec.toNat_add]
    have hflags : ((s.writeAlu dst (alu .add (s.getGpr dst) (s.getGpr src))).advance 2).flagr =
        (if 2 ^ 32 ≤ p + q then 0x0001 else 0) ||| (if (p + q) % 2 ^ 32 = 0 then 0x0002 else 0) :=
      flagsOf_alu_add _ _
    rw [hresult, hflags]
    obtain hsum | hsum | hsum | hsum :
      p + q = 0 ∨ (p + q ≠ 0 ∧ p + q < 2 ^ 32) ∨ p + q = 2 ^ 32 ∨ (2 ^ 32 < p + q ∧ p + q < 2 ^ 33) := by omega
    · rw [hsum]; rfl
    · rw [if_neg hsum.1, if_pos hsum.2, if_neg (by omega), Nat.mod_eq_of_lt hsum.2, if_neg hsum.1]
      rfl
    · rw [hsum]; rfl
    · have hmod : (p + q) % 2 ^ 32 = p + q - 2 ^ 32 := by omega
      rw [hmod, if_pos (by omega), if_neg (by omega), if_neg (by omega), if_neg (by omega), if_neg (by omega)]
      rfl
  · rw [State.advance_getGpr, State.writeAlu_getGpr, if_pos rfl, alu_xor_result, BitVec.toNat_xor]
  · refine (flagsOf_alu_xor _ _).trans ?_
    exact if_congr BitVec.toNat_inj.symm rfl rfl

end Sys2Proof.Machine
end

section
/-!
PROOFS. The assembler: the two passes over a text that is not only canonical statements, labels (48_assembly_syntax.md
section 3) and how far each error reaches (section 4).
-/

namespace Sys2Proof.Machine

/-! ## The phase of each error -/

/-- An error of the tokenizer, or text without an encoding: what ends the unit before the link pass (R195). -/
abbrev AsmError.OfScan (e : AsmError) : Prop := e.phase = some .tokenizer ∨ e = .noEncoding

/-- An error of the parser, or text without an encoding. -/
abbrev AsmError.OfParse (e : AsmError) : Prop := e.phase = some .parser ∨ e = .noEncoding

theorem pushToken_error {cur : Text} {toks : List Token} {e : AsmError} (h : pushToken cur toks = .error e) :
    e.OfScan := by
  unfold pushToken at h
  split_ifs at h <;> cases h <;> exact .inl rfl

theorem scanStatement_error {t cur : Text} {toks : List Token} {e : AsmError}
    (h : scanStatement t cur toks = .error e) : e.OfScan := by
  induction t generalizing cur toks with
  | nil =>
    rw [scanStatement] at h
    split_ifs at h <;> cases h <;> exact .inl rfl
  | cons c cs ih =>
    rw [scanStatement] at h
    split_ifs at h
    · split at h
      · next hpush => cases h; exact pushToken_error hpush
      · cases h; exact .inr rfl
      · cases h
    · split at h
      · next hpush => cases h; exact pushToken_error hpush
      · exact ih h
    · exact ih h

theorem parseRegister_error {t : Text} {e : AsmError} (h : parseRegister t = .error e) : e.OfParse := by
  unfold parseRegister at h
  split at h
  · split at h
    · cases h; exact .inl rfl
    · split_ifs at h; cases h; exact .inr rfl
  · cases h; exact .inl rfl

theorem parseImmediate_error {t : Text} {e : AsmError} (h : parseImmediate t = .error e) : e.OfParse := by
  unfold parseImmediate at h
  split at h
  · cases h; exact .inl rfl
  · split_ifs at h; cases h; exact .inr rfl

theorem fillOperand_error {st : Stmt} {o : OperandSpec} {tok : Token} {e : AsmError}
    (h : fillOperand st o tok = .error e) : e.OfParse := by
  unfold fillOperand at h
  split_ifs at h
  · split at h
    · split at h
      · next hreg => cases h; exact parseRegister_error hreg
      · cases h
    · split at h
      · next himm => cases h; exact parseImmediate_error himm
      · cases h
    · cases h
    · cases h; exact .inl rfl
  · cases h; exact .inl rfl

theorem fillOperands_error {os : List OperandSpec} {st : Stmt} {toks : List Token} {e : AsmError}
    (h : fillOperands st os toks = .error e) : e.OfParse := by
  induction os generalizing st toks with
  | nil =>
    cases toks with
    | nil => cases h
    | cons tok toks => cases h; exact .inl rfl
  | cons o os ih =>
    cases toks with
    | nil => cases h; exact .inl rfl
    | cons tok toks =>
      rw [fillOperands] at h
      split at h
      · next hfill => cases h; exact fillOperand_error hfill
      · exact ih h

theorem parseInstr_error {label : Option Text} {toks : List Token} {e : AsmError}
    (h : parseInstr label toks = .error e) : e.OfParse := by
  unfold parseInstr at h
  split at h
  · split at h
    · cases h; exact .inl rfl
    · exact fillOperands_error h
  · cases h; exact .inl rfl

theorem parseStatement_error {toks : List Token} {e : AsmError} (h : parseStatement toks = .error e) : e.OfParse := by
  unfold parseStatement at h
  split at h
  · exact parseInstr_error h
  · exact parseInstr_error h

/-- An outer error of a statement is one of reading its tokens, or of their parse without an encoding (R195). -/
theorem assembleStatement_error {t : Text} {e : AsmError} (h : assembleStatement t = .error e) : e.OfScan := by
  unfold assembleStatement at h
  split at h
  · next hscan => cases h; exact scanStatement_error hscan
  · split at h
    · cases h; exact .inr rfl
    · cases h

/-- An inner error of a statement is of the parser (R195). -/
theorem assembleStatement_inner_error {t : Text} {e : AsmError} {rest : Text}
    (h : assembleStatement t = .ok (.error e, rest)) : e.phase = some .parser := by
  unfold assembleStatement at h
  split at h
  · cases h
  · split at h
    · cases h
    · next hne =>
      injection h with h
      obtain ⟨hparse, -⟩ := Prod.mk.inj h
      exact (parseStatement_error hparse).resolve_right fun he => hne (he ▸ hparse)

/-! ## The first pass with any fuel that is enough -/

/-- What the first pass makes of a text at an address, whatever fuel above the text's length it is given. -/
def FirstPass (t : Text) (pc : Nat) (r : Except AsmError Parsed) : Prop :=
  ∀ fuel, t.length < fuel → firstPass fuel t pc = r

theorem FirstPass.nil (pc : Nat) : FirstPass [] pc (.ok ⟨[], []⟩) := by
  intro fuel hfuel
  obtain ⟨fuel, rfl⟩ := Nat.exists_eq_succ_of_ne_zero (Nat.ne_zero_of_lt hfuel)
  exact firstPass_nil fuel pc

/-- A statement, with or without a parser error, before a text the first pass gets through. -/
theorem FirstPass.statement {t rest : Text} {pc : Nat} {r : Except AsmError Stmt} {p : Parsed} (hne : t ≠ [])
    (ht : assembleStatement (t ++ rest) = .ok (r, rest)) (hrest : FirstPass rest (pc + parsedLength r) (.ok p)) :
    FirstPass (t ++ rest) pc (.ok (p.add pc r)) := by
  intro fuel hfuel
  obtain ⟨fuel, rfl⟩ := Nat.exists_eq_succ_of_ne_zero (Nat.ne_zero_of_lt hfuel)
  have hpos := List.length_pos_iff.mpr hne
  rw [List.length_append] at hfuel
  rw [firstPass, ht]
  simp only [hrest fuel (by omega)]

/-- A statement with an outer error ends the pass (R195). -/
theorem FirstPass.error {t : Text} {pc : Nat} {e : AsmError} (ht : assembleStatement t = .error e)
    (he : e ≠ .expectedEndOfInput) : FirstPass t pc (.error e) := by
  intro fuel hfuel
  obtain ⟨fuel, rfl⟩ := Nat.exists_eq_succ_of_ne_zero (Nat.ne_zero_of_lt hfuel)
  rw [firstPass, ht]
  split
  · next h => cases h; exact absurd rfl he
  · next h => cases h; rfl
  · next h => cases h

/-- Canonical statements before a further text, for which they leave fuel enough. -/
theorem FirstPass.canonical {is : List Instr} (his : ∀ i ∈ is, i.wellFormed = true) {rest : Text} {pc : Nat}
    {r : Except AsmError Parsed} (hrest : FirstPass rest (pc + (is.map Instr.length).sum) r) :
    FirstPass (is.flatMap disassemble ++ rest) pc (r.map (·.addCanonical pc is)) := by
  intro fuel hfuel
  have hlen := length_flatMap_le is
  rw [List.length_append] at hfuel
  obtain ⟨fuel, rfl⟩ := Nat.exists_eq_add_of_le (show is.length ≤ fuel by omega)
  rw [firstPass_flatMap is his, hrest fuel (by omega)]
  cases r <;> rfl

/-- Canonical statements to the end of the text. -/
theorem FirstPass.canonical_end {is : List Instr} (his : ∀ i ∈ is, i.wellFormed = true) (pc : Nat) :
    FirstPass (is.flatMap disassemble) pc (.ok ⟨stmtsFrom pc is, []⟩) := by
  have hpass := FirstPass.canonical his (FirstPass.nil (pc + (is.map Instr.length).sum))
  rw [List.append_nil] at hpass
  simpa [Except.map, Parsed.addCanonical] using hpass

/-- A space before a statement is skipped (R182). -/
theorem assembleStatement_space (t : Text) : assembleStatement (' ' :: t) = assembleStatement t := by
  obtain ⟨hsemi, hsep, -, -⟩ := sep_facts
  rw [assembleStatement, scan_space t [] ' ' hsemi hsep, assembleStatement]

theorem FirstPass.space {t : Text} {pc : Nat} {r : Except AsmError Parsed} (h : FirstPass t pc r) :
    FirstPass (' ' :: t) pc r := by
  intro fuel hfuel
  obtain ⟨fuel, rfl⟩ := Nat.exists_eq_succ_of_ne_zero (Nat.ne_zero_of_lt hfuel)
  rw [firstPass, assembleStatement_space]
  exact h (fuel + 1) (Nat.lt_of_succ_lt hfuel)

/-! ## The unit -/

theorem assembleUnit_of_firstPass_error {t : Text} {e : AsmError} (h : FirstPass t 0 (.error e)) :
    assembleUnit t = .error e := by
  simp only [assembleUnit, h (t.length + 1) (by omega)]

theorem assembleUnit_of_linkUnit {t : Text} {p : Parsed} {bs : List Byte} (h : FirstPass t 0 (.ok p))
    (hlink : linkUnit p.stmts = .ok bs) : assembleUnit t = .ok ⟨bs, p.errors⟩ := by
  simp only [assembleUnit, h (t.length + 1) (by omega), hlink]

theorem assembleUnit_of_linkUnit_error {t : Text} {p : Parsed} {e : AsmError} (h : FirstPass t 0 (.ok p))
    (hlink : linkUnit p.stmts = .error e) : assembleUnit t = .error e := by
  simp only [assembleUnit, h (t.length + 1) (by omega), hlink]

/-! ## The link pass -/

/-- Statements that define no label twice are linked against the labels they define (R192). -/
theorem linkUnit_of_nodup {sts : List (Nat × Stmt)} (h : ((labelsOf sts).map Prod.fst).Nodup) :
    linkUnit sts = linkImage (labelsOf sts) sts :=
  if_pos h

theorem labelsOf_canonical (is : List Instr) (pc : Nat) : labelsOf (stmtsFrom pc is) = [] := by
  have hlabels := labelsOf_stmtsFrom is pc []
  rwa [List.append_nil] at hlabels

theorem stmtsFrom_append (is js : List Instr) (pc : Nat) :
    stmtsFrom pc (is ++ js) = stmtsFrom pc is ++ stmtsFrom (pc + (is.map Instr.length).sum) js := by
  induction is generalizing pc with
  | nil => rfl
  | cons i is ih => simp [stmtsFrom, ih, Nat.add_assoc]

/-- What a jump to a label parses to: placeholder 0 and the symbol its operand slot awaits (R191). -/
def jumpToLabel (name : Text) : Stmt := ⟨none, ⟨.jmpabs, 0, 0, 5⟩, some (.op0, name)⟩

/-- A jump to a label that is not defined ends the unit (R192, R195). -/
theorem linkImage_jumpToLabel_unresolved {labels : List (Text × Nat)} {name : Text} (h : labels.lookup name = none)
    (pc : Nat) (sts : List (Nat × Stmt)) :
    linkImage labels ((pc, jumpToLabel name) :: sts) = .error (.unresolvedSymbol name) := by
  simp only [linkImage, linkStatement, jumpToLabel, h]

/-- A jump to a defined label is the jump to its address, modulo 2^32 (R192). -/
theorem linkImage_jumpToLabel {labels : List (Text × Nat)} {name : Text} {a : Nat} (h : labels.lookup name = some a)
    (pc : Nat) {sts : List (Nat × Stmt)} {bs : List Byte} (hsts : linkImage labels sts = .ok bs) :
    linkImage labels ((pc, jumpToLabel name) :: sts) = .ok (0x91 :: leBytes (BitVec.ofNat 32 a) ++ bs) := by
  simp only [linkImage, linkStatement, jumpToLabel, h, hsts]
  rfl

/-! ## A label -/

theorem assembleStatement_jmpabs_l (rest : Text) :
    assembleStatement ("jmpabs @l;".toList ++ rest) = .ok (.ok (jumpToLabel "l".toList), rest) :=
  rfl

/-- The statement that defines the label `l` (R189). -/
def labelledNop : Stmt := ⟨some "l".toList, Instr.nop.bundle, none⟩

theorem assembleStatement_l_nop : assembleStatement ("@l nop;".toList ++ []) = .ok (.ok labelledNop, []) :=
  rfl

/-- Settles O45: both passes over each text are evaluated. -/
theorem workedExamplesAssemble : Obligations.WorkedExamplesAssemble :=
  ⟨rfl, rfl, rfl⟩

/-- The first pass puts the labelled statement at the sum of the lengths before it (R190). -/
theorem firstPass_jump_over {is : List Instr} (his : ∀ i ∈ is, i.wellFormed = true) :
    FirstPass ("jmpabs @l; ".toList ++ is.flatMap disassemble ++ "@l nop;".toList) 0
      (.ok ⟨(0, jumpToLabel "l".toList) :: (stmtsFrom 5 is ++ [(5 + (is.map Instr.length).sum, labelledNop)]), []⟩) := by
  have hlabelled (pc : Nat) := FirstPass.statement (pc := pc) (by decide) assembleStatement_l_nop (FirstPass.nil _)
  have hbody := (FirstPass.canonical his (pc := 5) (hlabelled _)).space
  exact (List.append_assoc _ _ _).symm ▸ FirstPass.statement (by decide) (assembleStatement_jmpabs_l _) hbody

/-- Settles O46: the link pass gives the jump the address of the one label defined. -/
theorem labelIsTheByteOffset : Obligations.LabelIsTheByteOffset := by
  intro is his offset
  have hlabels : labelsOf ((0, jumpToLabel "l".toList) :: (stmtsFrom 5 is ++ [(offset, labelledNop)])) =
      [("l".toList, offset)] :=
    labelsOf_stmtsFrom is 5 [(offset, labelledNop)]
  have hbody : linkImage [("l".toList, offset)] (stmtsFrom 5 is ++ [(offset, labelledNop)]) =
      .ok (is.flatMap (fun i => (encode i).getD []) ++ [0x90]) :=
    linkImage_stmtsFrom _ is his 5 _
  have hlink : linkUnit ((0, jumpToLabel "l".toList) :: (stmtsFrom 5 is ++ [(offset, labelledNop)])) =
      .ok (0x91 :: leBytes (BitVec.ofNat 32 offset) ++ (is.flatMap (fun i => (encode i).getD []) ++ [0x90])) := by
    rw [linkUnit_of_nodup (by rw [hlabels]; exact List.nodup_singleton _), hlabels]
    exact linkImage_jumpToLabel (List.lookup_cons_self) 0 hbody
  rw [assemble, assembleUnit_of_linkUnit (firstPass_jump_over his) hlink, ← List.append_assoc]

/-! ## How far an error reaches -/

/-- A parser error among canonical statements is reported beside the image of the others (R195). -/
theorem assembleUnit_parser_error {is js : List Instr} {bad : Text} {e : AsmError}
    (h : ∀ i ∈ is ++ js, i.wellFormed = true) (hbad : ∀ rest, assembleStatement (bad ++ rest) = .ok (.error e, rest)) :
    assembleUnit (is.flatMap disassemble ++ (bad ++ js.flatMap disassemble)) =
      .ok ⟨(is ++ js).flatMap (fun i => (encode i).getD []), [e]⟩ := by
  obtain ⟨his, hjs⟩ := List.forall_mem_append.mp h
  have hne : bad ≠ [] := by
    rintro rfl
    cases hbad []
  have hrest (pc : Nat) :=
    FirstPass.statement (pc := pc) hne (hbad (js.flatMap disassemble)) (FirstPass.canonical_end hjs _)
  refine assembleUnit_of_linkUnit (FirstPass.canonical his (hrest _)) ?_
  show linkUnit (stmtsFrom 0 is ++ stmtsFrom (0 + (is.map Instr.length).sum) js) = _
  rw [← stmtsFrom_append, linkUnit_stmtsFrom _ h]

theorem assembleStatement_jmpabs_missing (rest : Text) :
    assembleStatement ("jmpabs @missing;".toList ++ rest) = .ok (.ok (jumpToLabel "missing".toList), rest) :=
  rfl

/-- An unresolved symbol among canonical statements ends the unit (R195). -/
theorem assembleUnit_unresolved {is js : List Instr} (h : ∀ i ∈ is ++ js, i.wellFormed = true) :
    assembleUnit (is.flatMap disassemble ++ ("jmpabs @missing;".toList ++ js.flatMap disassemble)) =
      .error (.unresolvedSymbol "missing".toList) := by
  obtain ⟨his, hjs⟩ := List.forall_mem_append.mp h
  have hrest (pc : Nat) :=
    FirstPass.statement (pc := pc) (by decide) (assembleStatement_jmpabs_missing _) (FirstPass.canonical_end hjs _)
  refine assembleUnit_of_linkUnit_error (FirstPass.canonical his (hrest _)) ?_
  show linkUnit (stmtsFrom 0 is ++ (_, jumpToLabel "missing".toList) :: stmtsFrom _ js) = _
  have hlabels (pc pc' : Nat) :
      labelsOf (stmtsFrom 0 is ++ (pc, jumpToLabel "missing".toList) :: stmtsFrom pc' js) = [] :=
    (labelsOf_stmtsFrom is 0 _).trans (labelsOf_canonical js pc')
  rw [linkUnit_of_nodup (by rw [hlabels]; exact List.nodup_nil), hlabels, linkImage_stmtsFrom [] is his,
    linkImage_jumpToLabel_unresolved rfl]

/-- Settles O47: one lemma for the errors of a statement, and one for each kind of error among canonical statements. -/
theorem assemblerErrorsReachTheirScope : Obligations.AssemblerErrorsReachTheirScope :=
  ⟨fun _ _ h => assembleStatement_error h, fun _ _ _ h => assembleStatement_inner_error h,
    fun _ _ _ his hbad he => assembleUnit_of_firstPass_error (FirstPass.canonical his (FirstPass.error hbad he)),
    fun _ _ _ _ h hbad => assembleUnit_parser_error h hbad, fun _ _ h => assembleUnit_unresolved h⟩

end Sys2Proof.Machine
end
